-- ==== Sys2Proof/Word.lean ====
section
/-! DEFINITION. The two widths of the machine (00_scope.md R3): 8-bit registers, data cells and addresses; 16-bit program words. -/

namespace Sys2Proof

/-- An 8-bit value: a register, a data-memory cell or an address (00_scope.md R3). -/
abbrev Byte := BitVec 8

/-- A 16-bit program-memory word, one instruction (30_encoding.md R50). -/
abbrev Word := BitVec 16

end Sys2Proof
end

