-- ==== Sys2Proof/Config.lean ====
section
/-! DEFINITION. What the platform fixes (the parameters of 00_scope.md R4) and the free values: constants with no body, of
which nothing can be proved but what holds of every value. -/

namespace Sys2Proof

/-- Which memory answers an address (20_memory.md R31). -/
inductive Region where
  /-- program memory, a 16-bit word -/
  | prog
  /-- data memory, an 8-bit cell -/
  | data
  /-- nothing answers -/
  | none
  deriving DecidableEq, Repr

/-- One range of the platform's map: `size` addresses from `base` on are of `kind`. -/
structure RegionRange where
  base : Nat
  size : Nat
  kind : Region
  deriving DecidableEq, Repr

/-- What a STORE to a program-memory address does, `STORE_TO_PROG` (20_memory.md R36). -/
inductive StoreToProg where
  | refuse
  | writesLowByte
  deriving DecidableEq, Repr

/-- Which program counter an ALU source operand sees: the address of the ALU instruction or of the one after it
(10_state.md R19). -/
inductive PcPhase where
  | current
  | next
  deriving DecidableEq, Repr, Inhabited

/-- What an ALU operation sees when PC is a source operand, `ALU_PC_READ` (10_state.md R19): the three values of the
parameter are `refuse`, `reads .current` and `reads .next`. -/
inductive AluPcRead where
  | refuse
  | reads (p : PcPhase)
  deriving DecidableEq, Repr

/-- Whether PC has advanced when HALT stops the clock, `HALT_PC` (40_halt_nop.md R70). -/
inductive HaltPc where
  | stays
  | advances
  deriving DecidableEq, Repr, Inhabited

/-- Whether INC has been loaded when HALT stops the clock with PC not advanced. The model's own parameter
("INC may or may not hold next", 40_halt_nop.md R70). -/
inductive HaltInc where
  | stays
  | loaded
  deriving DecidableEq, Repr, Inhabited

/-- How a decoder treats the `-` bits of an instruction code, `DONT_CARE` (30_encoding.md R53). -/
inductive DontCare where
  | ignore
  | mustBeZero
  deriving DecidableEq, Repr

/-- How the two results the source calls "undefined" are taken, the model's own parameter. `refuse` is the spec's decision D18
(43_movi_mov.md R91, 41_load_store.md R75); `freeValue` is the narrower reading it records in 93_implementation_defined.md
U1 and U2: the destination receives an arbitrary 8 bits and everything else is as in the pseudocode.
DESIGN CHOICE (log 8). -/
inductive UndefinedResult where
  | refuse
  | freeValue
  deriving DecidableEq, Repr

/-- The platform's parameters (00_scope.md R4), plain data. They stand in the state, no instruction writes them, and a
statement about every state is therefore a statement about every choice of them (log 25). -/
structure Config where
  /-- `REGION`, as the ranges of the map: the first range that holds an address decides, an address in no range is `none`
  (20_memory.md R31; log 4) -/
  region : List RegionRange
  /-- `STORE_TO_PROG` (20_memory.md R36; log 5) -/
  storeToProg : StoreToProg
  /-- `ALU_PC_READ` (10_state.md R19; log 6) -/
  aluPcRead : AluPcRead
  /-- `HALT_PC` (40_halt_nop.md R70; log 7) -/
  haltPc : HaltPc
  /-- the model's own: INC after HALT (log 7) -/
  haltInc : HaltInc
  /-- `DONT_CARE` (30_encoding.md R53; log 3) -/
  dontCare : DontCare
  /-- the model's own: the two undefined results (log 8) -/
  undefinedResult : UndefinedResult
  deriving DecidableEq, Repr

/-- FREE VALUE. The n-th fresh arbitrary byte of a run: what an "undefined" result is (log 8, log 26). -/
opaque Config.freeByte : Nat → Byte

/-- FREE VALUE. What a data cell that nothing has written reads as, one byte per address (10_state.md R26, the free draw;
93_implementation_defined.md S8 "stable until written"; log 11). -/
opaque Config.unwrittenCell : Byte → Byte

/-- FREE VALUE. What a program word that no program has filled reads as, one word per address (log 12). -/
opaque Config.unwrittenWord : Byte → Word

/-- FREE VALUE. The phase of `ALU_PC_READ` in State.reset (log 6). -/
opaque Config.aluPcPhase : PcPhase

/-- FREE VALUE. `HALT_PC` in State.reset; "no default is chosen" (40_halt_nop.md R70; log 7). -/
opaque Config.haltPcChoice : HaltPc

/-- FREE VALUE. INC after HALT in State.reset (log 7). -/
opaque Config.haltIncChoice : HaltInc

end Sys2Proof
end

