-- ==== Sys2Proof/Syntax.lean ====
section
/-! DEFINITION. The instruction set as data: the operand classes of 00_scope.md R9 and one constructor of `Instr` per row of
opcode_table.json. -/

namespace Sys2Proof

/-- Operand class G, the eight registers (00_scope.md R9, 10_state.md R10). -/
inductive Reg where
  | a | b | c | d | m | s | l | pc
  deriving DecidableEq, Repr

/-- Operand class P, the four memory pointers (00_scope.md R9, 10_state.md R12). -/
inductive Ptr where
  | m | s | l | pc
  deriving DecidableEq, Repr

/-- The register a pointer operand names. -/
def Ptr.reg : Ptr → Reg
  | .m => .m
  | .s => .s
  | .l => .l
  | .pc => .pc

/-- The seven conditions (30_encoding.md R55): always, Z=1, S=0, CY=1, CY=0, S=1, Z=0. -/
inductive Cond where
  | always | z | ns | c | nc | s | nz
  deriving DecidableEq, Repr

/-- The destination of an ALU operation: `F`, no register (r = 0), or a register (r = 1) (30_encoding.md R57, R65). -/
inductive Dest where
  | f
  | g (r : Reg)
  deriving DecidableEq, Repr

/-- One constructor per row of opcode_table.json. -/
inductive Instr where
  | nop
  | halt
  | mov (gd gs : Reg)
  | loadImm (gd : Reg) (imm : Byte)
  | load (gd : Reg) (p : Ptr)
  | storeImm (gs : Reg) (imm : Byte)
  | store (gs : Reg) (p : Ptr)
  | adcReg (gd : Dest) (x y : Reg)
  | adcImm (gd : Dest) (x : Reg) (imm : BitVec 3)
  | addReg (gd : Dest) (x y : Reg)
  | addImm (gd : Dest) (x : Reg) (imm : BitVec 3)
  | sbcReg (gd : Dest) (x y : Reg)
  | sbcImm (gd : Dest) (x : Reg) (imm : BitVec 3)
  | subReg (gd : Dest) (x y : Reg)
  | subImm (gd : Dest) (x : Reg) (imm : BitVec 3)
  | andReg (gd : Dest) (x y : Reg)
  | andImm (gd : Dest) (x : Reg) (imm : BitVec 3)
  | orReg (gd : Dest) (x y : Reg)
  | orImm (gd : Dest) (x : Reg) (imm : BitVec 3)
  | xorReg (gd : Dest) (x y : Reg)
  | xorImm (gd : Dest) (x : Reg) (imm : BitVec 3)
  | not (gd : Dest) (gs : Reg)
  | ror (gd : Dest) (gs : Reg)
  | shr (gd : Dest) (gs : Reg)
  | rcr (gd : Dest) (gs : Reg)
  | movi (cond : Cond) (gd : Reg) (imm : Byte)
  | jmp (cond : Cond) (imm : Byte)
  | call (cond : Cond) (imm : Byte)
  deriving DecidableEq, Repr

/-- Why a word decodes to no instruction, the decoder's part of the closed list of 93_implementation_defined.md section 3. -/
inductive EncodingReject where
  /-- `00001...`, `1ccc1ddd` with `ddd` not 111, unary code with bit 0 = 1 (30_encoding.md R60 X1, X2, X4) -/
  | unassignedEncoding
  /-- condition code 111 (R55, R60 X3) -/
  | cond111
  /-- a pointer field that names A, B, C or D (R54, R60 X5) -/
  | pointerCode
  /-- a 1 in a `-` position under `DONT_CARE = must_be_zero` (R53) -/
  | nonzeroDontCare
  deriving DecidableEq, Repr

end Sys2Proof
end

