-- ==== Sys2Proof/WellFormed.lean ====
section
/-! DEFINITION. Which terms of `Instr` stand for words of the opcode table. The types of the operands leave one term out: MOVI
with destination PC, whose words are the JMP row's (30_encoding.md R59, 90_conflicts.md C7). -/

namespace Sys2Proof

/-- The MOVI row of opcode_table.json carries the constraint "d != 7"; every other operand value is a word of its row. -/
def Instr.wellFormed : Instr → Bool
  | .movi _ gd _ => gd != .pc
  | _ => true

end Sys2Proof
end

