-- ==== Sys2Proof/Decode.lean ====
section
/-! DEFINITION. The decoder of 30_encoding.md R62, total on all 65536 words and refusing by name, and the canonical encoder of R66. -/

namespace Sys2Proof

/-! ### The code tables, each in one place (10_state.md R11, 30_encoding.md R54, R55) -/

/-- The register a 3-bit code names: list order, A = 0 to PC = 7 (10_state.md R11, D2; log 1). -/
def Reg.ofCode (c : BitVec 3) : Reg :=
  match c.toNat with
  | 0 => .a
  | 1 => .b
  | 2 => .c
  | 3 => .d
  | 4 => .m
  | 5 => .s
  | 6 => .l
  | _ => .pc

/-- The 3-bit code of a register (10_state.md R11). -/
def Reg.code : Reg → BitVec 3
  | .a => 0
  | .b => 1
  | .c => 2
  | .d => 3
  | .m => 4
  | .s => 5
  | .l => 6
  | .pc => 7

/-- The pointer a 3-bit code names; codes 0 to 3 are not assigned in a pointer field (30_encoding.md R54, D3; log 14). -/
def Ptr.ofCode (c : BitVec 3) : Option Ptr :=
  match c.toNat with
  | 4 => some .m
  | 5 => some .s
  | 6 => some .l
  | 7 => some .pc
  | _ => none

/-- The condition a 3-bit code names; code 111 is not listed (30_encoding.md R55, D6; log 14). -/
def Cond.ofCode (c : BitVec 3) : Option Cond :=
  match c.toNat with
  | 0 => some .always
  | 1 => some .z
  | 2 => some .ns
  | 3 => some .c
  | 4 => some .nc
  | 5 => some .s
  | 6 => some .nz
  | _ => none

/-- The 3-bit code of a condition (30_encoding.md R55). -/
def Cond.code : Cond → BitVec 3
  | .always => 0
  | .z => 1
  | .ns => 2
  | .c => 3
  | .nc => 4
  | .s => 5
  | .nz => 6

/-! ### The decoder -/

/-- `bits[lo + len - 1 : lo]` of a word (00_scope.md R5). -/
def field (w : Word) (lo len : Nat) : BitVec len :=
  w.extractLsb' lo len

/-- The `-` bits `dashes` of a form: ignored, or, under `DONT_CARE = must_be_zero`, refused when one of them is 1
(30_encoding.md R53, D5; log 3). -/
def checkDashes (dc : DontCare) (dashes w : Word) (r : Except EncodingReject Instr) : Except EncodingReject Instr :=
  match dc with
  | .ignore => r
  | .mustBeZero => if w &&& dashes = 0 then r else .error .nonzeroDontCare

/-- The destination of an ALU word: `F` when r = bits[3] is 0, and then bits[10:8] take no part (30_encoding.md R65, D19; log 30). -/
def aluDest (w : Word) : Dest :=
  if field w 3 1 = 1 then .g (Reg.ofCode (field w 8 3)) else .f

/-- A binary ALU word, `01bbbddd ixxxryyy`, of one operation: i = bits[7] selects the register or the immediate row
(30_encoding.md R57). -/
def decodeBinary (reg : Dest → Reg → Reg → Instr) (imm : Dest → Reg → BitVec 3 → Instr) (w : Word) :
    Except EncodingReject Instr :=
  if field w 7 1 = 1 then .ok (imm (aluDest w) (Reg.ofCode (field w 4 3)) (field w 0 3))
  else .ok (reg (aluDest w) (Reg.ofCode (field w 4 3)) (Reg.ofCode (field w 0 3)))

/-- A unary ALU word, `01111ddd -sssruu0` (30_encoding.md R58); bit 0 = 1 is not assigned (R60 X4). -/
def decodeUnary (dc : DontCare) (w : Word) : Except EncodingReject Instr :=
  if field w 0 1 = 1 then .error .unassignedEncoding
  else
    let gd := aluDest w
    let gs := Reg.ofCode (field w 4 3)
    checkDashes dc 0x0080 w (.ok (match (field w 1 2).toNat with
      | 0 => .not gd gs
      | 1 => .ror gd gs
      | 2 => .shr gd gs
      | _ => .rcr gd gs))

/-- A word of the conditional group, bits[15] = 1: condition 111 is tested first (30_encoding.md R62). -/
def decodeConditional (w : Word) : Except EncodingReject Instr :=
  match Cond.ofCode (field w 12 3) with
  | none => .error .cond111
  | some cond =>
    let gd := Reg.ofCode (field w 8 3)
    if field w 11 1 = 0 then
      if gd = .pc then .ok (.jmp cond (field w 0 8)) else .ok (.movi cond gd (field w 0 8))
    else
      if gd = .pc then .ok (.call cond (field w 0 8)) else .error .unassignedEncoding

/-- The decoder, 30_encoding.md R62 and R52. -/
def decode (dc : DontCare) (w : Word) : Except EncodingReject Instr :=
  let gd := Reg.ofCode (field w 8 3)
  match (field w 11 5).toNat with
  | 0 => checkDashes dc 0x07FF w (.ok .nop)
  | 1 => .error .unassignedEncoding
  | 2 => checkDashes dc 0x07FF w (.ok .halt)
  | 3 => checkDashes dc 0x008F w (.ok (.mov gd (Reg.ofCode (field w 4 3))))
  | 4 => .ok (.loadImm gd (field w 0 8))
  | 5 => checkDashes dc 0x00F8 w (match Ptr.ofCode (field w 0 3) with
      | none => .error .pointerCode
      | some p => .ok (.load gd p))
  | 6 => .ok (.storeImm gd (field w 0 8))
  | 7 => checkDashes dc 0x00F8 w (match Ptr.ofCode (field w 0 3) with
      | none => .error .pointerCode
      | some p => .ok (.store gd p))
  | 8 => decodeBinary .adcReg .adcImm w
  | 9 => decodeBinary .addReg .addImm w
  | 10 => decodeBinary .sbcReg .sbcImm w
  | 11 => decodeBinary .subReg .subImm w
  | 12 => decodeBinary .andReg .andImm w
  | 13 => decodeBinary .orReg .orImm w
  | 14 => decodeBinary .xorReg .xorImm w
  | 15 => decodeUnary dc w
  | _ => decodeConditional w

/-- The instruction read from a word numbered as opcode_table.json numbers it, under the spec's default `DONT_CARE = ignore`. -/
def decodeTableWord (nbits w : Nat) : Option Instr :=
  (decode .ignore (BitVec.ofNat 16 (w % 2 ^ nbits))).toOption

/-! ### The canonical encoder (30_encoding.md R66): `-` bits 0, and for destination `F` d = 000 -/

/-- `ddd` of an ALU word. -/
def Dest.code : Dest → BitVec 3
  | .f => 0
  | .g r => r.code

/-- `r` of an ALU word. -/
def Dest.writeBack : Dest → BitVec 1
  | .f => 0
  | .g _ => 1

/-- `01bbbddd 0xxxryyy` -/
def encodeBinaryReg (b : BitVec 3) (gd : Dest) (x y : Reg) : Word :=
  0b01#2 ++ b ++ gd.code ++ 0#1 ++ x.code ++ gd.writeBack ++ y.code

/-- `01bbbddd 1xxxryyy` with `yyy` the immediate -/
def encodeBinaryImm (b : BitVec 3) (gd : Dest) (x : Reg) (imm : BitVec 3) : Word :=
  0b01#2 ++ b ++ gd.code ++ 1#1 ++ x.code ++ gd.writeBack ++ imm

/-- `01111ddd -sssruu0` -/
def encodeUnary (u : BitVec 2) (gd : Dest) (gs : Reg) : Word :=
  0b01111#5 ++ gd.code ++ 0#1 ++ gs.code ++ gd.writeBack ++ u ++ 0#1

/-- The canonical word of an instruction, written from the codes of 30_encoding.md R51. -/
def encode : Instr → Word
  | .nop => 0b00000#5 ++ 0#11
  | .halt => 0b00010#5 ++ 0#11
  | .mov gd gs => 0b00011#5 ++ gd.code ++ 0#1 ++ gs.code ++ 0#4
  | .loadImm gd imm => 0b00100#5 ++ gd.code ++ imm
  | .load gd p => 0b00101#5 ++ gd.code ++ 0#5 ++ p.reg.code
  | .storeImm gs imm => 0b00110#5 ++ gs.code ++ imm
  | .store gs p => 0b00111#5 ++ gs.code ++ 0#5 ++ p.reg.code
  | .adcReg gd x y => encodeBinaryReg 0b000 gd x y
  | .adcImm gd x imm => encodeBinaryImm 0b000 gd x imm
  | .addReg gd x y => encodeBinaryReg 0b001 gd x y
  | .addImm gd x imm => encodeBinaryImm 0b001 gd x imm
  | .sbcReg gd x y => encodeBinaryReg 0b010 gd x y
  | .sbcImm gd x imm => encodeBinaryImm 0b010 gd x imm
  | .subReg gd x y => encodeBinaryReg 0b011 gd x y
  | .subImm gd x imm => encodeBinaryImm 0b011 gd x imm
  | .andReg gd x y => encodeBinaryReg 0b100 gd x y
  | .andImm gd x imm => encodeBinaryImm 0b100 gd x imm
  | .orReg gd x y => encodeBinaryReg 0b101 gd x y
  | .orImm gd x imm => encodeBinaryImm 0b101 gd x imm
  | .xorReg gd x y => encodeBinaryReg 0b110 gd x y
  | .xorImm gd x imm => encodeBinaryImm 0b110 gd x imm
  | .not gd gs => encodeUnary 0b00 gd gs
  | .ror gd gs => encodeUnary 0b01 gd gs
  | .shr gd gs => encodeUnary 0b10 gd gs
  | .rcr gd gs => encodeUnary 0b11 gd gs
  | .movi cond gd imm => 1#1 ++ cond.code ++ 0#1 ++ gd.code ++ imm
  | .jmp cond imm => 1#1 ++ cond.code ++ 0b0111#4 ++ imm
  | .call cond imm => 1#1 ++ cond.code ++ 0b1111#4 ++ imm

/-- The row of opcode_table.json an instruction belongs to: its mask and its match. -/
def Instr.tableRow : Instr → Word × Word
  | .nop => (0xF800, 0x0000)
  | .halt => (0xF800, 0x1000)
  | .mov _ _ => (0xF800, 0x1800)
  | .loadImm _ _ => (0xF800, 0x2000)
  | .load _ _ => (0xF800, 0x2800)
  | .storeImm _ _ => (0xF800, 0x3000)
  | .store _ _ => (0xF800, 0x3800)
  | .adcReg _ _ _ => (0xF880, 0x4000)
  | .adcImm _ _ _ => (0xF880, 0x4080)
  | .addReg _ _ _ => (0xF880, 0x4800)
  | .addImm _ _ _ => (0xF880, 0x4880)
  | .sbcReg _ _ _ => (0xF880, 0x5000)
  | .sbcImm _ _ _ => (0xF880, 0x5080)
  | .subReg _ _ _ => (0xF880, 0x5800)
  | .subImm _ _ _ => (0xF880, 0x5880)
  | .andReg _ _ _ => (0xF880, 0x6000)
  | .andImm _ _ _ => (0xF880, 0x6080)
  | .orReg _ _ _ => (0xF880, 0x6800)
  | .orImm _ _ _ => (0xF880, 0x6880)
  | .xorReg _ _ _ => (0xF880, 0x7000)
  | .xorImm _ _ _ => (0xF880, 0x7080)
  | .not _ _ => (0xF807, 0x7800)
  | .ror _ _ => (0xF807, 0x7802)
  | .shr _ _ => (0xF807, 0x7804)
  | .rcr _ _ => (0xF807, 0x7806)
  | .movi _ _ _ => (0x8800, 0x8000)
  | .jmp _ _ => (0x8F00, 0x8700)
  | .call _ _ => (0x8F00, 0x8F00)

/-- The `-` bits of an instruction's code (30_encoding.md R51, R53). -/
def Instr.dashBits : Instr → Word
  | .nop => 0x07FF
  | .halt => 0x07FF
  | .mov _ _ => 0x008F
  | .load _ _ => 0x00F8
  | .store _ _ => 0x00F8
  | .not _ _ => 0x0080
  | .ror _ _ => 0x0080
  | .shr _ _ => 0x0080
  | .rcr _ _ => 0x0080
  | _ => 0x0000

/-- Destination `F`, where bits[10:8] take no part (30_encoding.md R65). -/
def Instr.discards : Instr → Bool
  | .adcReg gd _ _ => gd == .f
  | .adcImm gd _ _ => gd == .f
  | .addReg gd _ _ => gd == .f
  | .addImm gd _ _ => gd == .f
  | .sbcReg gd _ _ => gd == .f
  | .sbcImm gd _ _ => gd == .f
  | .subReg gd _ _ => gd == .f
  | .subImm gd _ _ => gd == .f
  | .andReg gd _ _ => gd == .f
  | .andImm gd _ _ => gd == .f
  | .orReg gd _ _ => gd == .f
  | .orImm gd _ _ => gd == .f
  | .xorReg gd _ _ => gd == .f
  | .xorImm gd _ _ => gd == .f
  | .not gd _ => gd == .f
  | .ror gd _ => gd == .f
  | .shr gd _ => gd == .f
  | .rcr gd _ => gd == .f
  | _ => false

end Sys2Proof
end

