-- ==== Sys2Proof/Machine/Launch.lean ====
section
/-! DEFINITION. The launch values State.reset uses: what 70_reset_and_hazards.md R135 and R138 leave to the platform or to nobody.
Each is a choice of the model, named in the log, and no statement about every state rests on one. -/

namespace Sys2Proof.Machine

/-- REGION after reset: the map of the spec's own test programs, 0x00 to 0x7F `prog`, 0x80 to 0xFF `data`
(00_scope.md R4, 95_test_vectors.md). DESIGN CHOICE (log 4). -/
def resetRegion : List RegionRange :=
  [{ base := 0x00, size := 0x80, kind := .prog }, { base := 0x80, size := 0x80, kind := .data }]

/-- The parameters after reset. `DONT_CARE` is the spec's default. For `STORE_TO_PROG`, `ALU_PC_READ` and the undefined results the
spec lists an effect beside a refusal, and State.reset takes the effect; an effect with two readings is a free value.
DESIGN CHOICE (log 3, 5, 6, 7, 8). -/
def resetConfig : Config where
  region := resetRegion
  storeToProg := .writesLowByte
  aluPcRead := .reads Config.aluPcPhase
  haltPc := Config.haltPcChoice
  haltInc := Config.haltIncChoice
  dontCare := .ignore
  undefinedResult := .freeValue

/-- RESET_PC, suggested 0x00 (10_state.md R28, D13). DESIGN CHOICE (log 10). -/
def resetPc : Byte := 0x00

/-- The value of A, B, C, D, M, S, L after reset; the spec gives none (10_state.md R28). DESIGN CHOICE (log 9). -/
def resetReg (_ : Reg) : Byte := 0x00

/-- The value of CY, Z, S after reset; the spec gives none (10_state.md R28). DESIGN CHOICE (log 9). -/
def resetFlag : Bool := false

end Sys2Proof.Machine
end

