-- ==== Sys2Proof/Machine/State.lean ====
section
/-! DEFINITION. The state of the machine (10_state.md R10, R15, R21, R22, R27; 20_memory.md R30), the reasons a step can stop, and the
state after reset. -/

namespace Sys2Proof.Machine

/-- The faults of the hardware: none. "The hardware itself has no fault outcome" (00_scope.md R8, 60_exceptions.md R120), so the type
has no constructor and no step of this machine ends in a fault. -/
inductive Fault where
  deriving DecidableEq, Repr

/-- Why the model gives a step no meaning: the closed list of 93_implementation_defined.md section 3. -/
inductive Refusal where
  /-- Raised by exec's arm of an instruction that has no meaning yet. Safe. -/
  | notModelled (mnemonic : String)
  /-- Raised by step when the fetched word decodes to no instruction (30_encoding.md R60, R53). Safe. -/
  | encoding (r : EncodingReject)
  /-- Raised by MOV with Gd = Gs when `cfg.undefinedResult` is `refuse` (43_movi_mov.md R91, D18). Safe. -/
  | movToItself
  /-- Raised by LOAD G, P with G = P when `cfg.undefinedResult` is `refuse` (41_load_store.md R75, D18). Safe. -/
  | loadThroughItself
  /-- Raised by an ALU operation with PC as a source when `ALU_PC_READ` is `refuse` (10_state.md R19). Safe. -/
  | aluPcSource
  /-- Raised by step when PC is an address of data memory (20_memory.md R33, D10). Safe. -/
  | fetchFromData
  /-- Raised by the instruction fetch (20_memory.md R33) and by the data read and write of LOAD and STORE (R34, R35) at an
  address whose REGION is `none` (R40, D28; log 13). Safe. -/
  | accessToUnmapped
  /-- Raised by STORE to a program-memory address when `STORE_TO_PROG` is `refuse` (20_memory.md R36). Safe. -/
  | storeToProg
  deriving DecidableEq, Repr

/-- The three flags (10_state.md R22). -/
structure Flags where
  cy : Bool
  z : Bool
  s : Bool
  deriving DecidableEq, Repr

/-- A memory of `w`-bit locations: (address, value) pairs, addresses strictly rising and below 256. An address that is not listed holds
no value (20_memory.md R30, 10_state.md R26). `Memory 8` is a list of Host.Cell. -/
abbrev Memory (w : Nat) := List (Nat × BitVec w)

/-- Everything the spec gives the machine (10_state.md, and the table of R28). -/
structure State where
  /-- A, B, C, D, general purpose (R10) -/
  a : Byte
  b : Byte
  c : Byte
  d : Byte
  /-- M and S, memory pointers (R10) -/
  m : Byte
  s : Byte
  /-- L, link (R10) -/
  l : Byte
  /-- PC (R13): before an instruction, its address -/
  pc : Byte
  /-- CY, Z, S (R22) -/
  flags : Flags
  /-- INC, hidden (R15) -/
  inc : Byte
  /-- the ALU's internal operand registers, hidden (R21) -/
  aluOp1 : Byte
  aluOp2 : Byte
  /-- the clock is stopped (R27, 40_halt_nop.md R70) -/
  halted : Bool
  /-- program memory (20_memory.md R30) -/
  pmem : Memory 16
  /-- data memory (20_memory.md R30) -/
  dmem : Memory 8
  /-- the platform's parameters (00_scope.md R4); no instruction writes them (log 25) -/
  cfg : Config
  /-- the MODEL'S OWN field: how many fresh free bytes have been drawn (log 26) -/
  draws : Nat
  deriving DecidableEq, Repr

/-- What an operation of the machine answers: a value, a fault or a refusal. -/
abbrev Result (α : Type) := Host.Outcome α Fault Refusal

/-- The state at the start of a run, for any parameters, RESET_PC, register and flag values, PMEM0 and DMEM0
(10_state.md R28, 70_reset_and_hazards.md R135, R138). INC and the ALU's operand registers are "irrelevant" there (log 21). -/
def State.launch (cfg : Config) (pc0 : Byte) (x : Reg → Byte) (f : Flags) (pmem0 : Memory 16) (dmem0 : Memory 8) : State where
  a := x .a
  b := x .b
  c := x .c
  d := x .d
  m := x .m
  s := x .s
  l := x .l
  pc := pc0
  flags := f
  inc := 0x00
  aluOp1 := 0x00
  aluOp2 := 0x00
  halted := false
  pmem := pmem0
  dmem := dmem0
  cfg := cfg
  draws := 0

/-- The machine right after reset: the launch with the values of Launch.lean and nothing placed in either memory (log 9, 10, 12). -/
def State.reset : State :=
  State.launch resetConfig resetPc resetReg ⟨resetFlag, resetFlag, resetFlag⟩ [] []

end Sys2Proof.Machine
end

