-- ==== Sys2Proof/Machine/Ops.lean ====
section
/-! DEFINITION. The named operations over registers and memories: the primitives of 00_scope.md R6 and 20_memory.md R33 to R36, and
the first two phases of an instruction (10_state.md R16). Taking an exception and returning from one have no operation here: the
hardware has neither (60_exceptions.md R120, R123, R124). -/

namespace Sys2Proof.Machine

/-- Go on with the value an operation answers; a fault or a refusal ends the instruction. -/
def andThen {α β : Type} (x : Result α) (k : α → Result β) : Result β :=
  match x with
  | .next v => k v
  | .fault r => .fault r
  | .refused r => .refused r

/-! ### Registers (10_state.md R10, R18, R20) -/

/-- The content of a register. In the Exec phase, after `State.advance`, this is `rd(g)` of 10_state.md R18: PC then holds `next`. -/
def State.getReg (s : State) : Reg → Byte
  | .a => s.a
  | .b => s.b
  | .c => s.c
  | .d => s.d
  | .m => s.m
  | .s => s.s
  | .l => s.l
  | .pc => s.pc

/-- Write a register. In the Exec phase this is `wr(g, v)` of 10_state.md R20: a write to PC replaces the value phase 2 gave it. -/
def State.setReg (s : State) (r : Reg) (v : Byte) : State :=
  match r with
  | .a => { s with a := v }
  | .b => { s with b := v }
  | .c => { s with c := v }
  | .d => { s with d := v }
  | .m => { s with m := v }
  | .s => { s with s := v }
  | .l => { s with l := v }
  | .pc => { s with pc := v }

/-- `next`, the address of the following instruction: (pc + 1) mod 256 (10_state.md R14, D11; log 19). -/
def State.next (s : State) : Byte := s.pc + 1

/-- Phase 1, Fetch: "INC register is loaded with current PC value plus one" (10_state.md R16). -/
def State.latchInc (s : State) : State := { s with inc := s.next }

/-- Phase 2 of every instruction but a taken CALL: INC goes to PC (10_state.md R16). -/
def State.incToPc (s : State) : State := { s with pc := s.inc }

/-- Phase 2 of a taken CALL: INC goes to L (10_state.md R16, 42_call_jump.md R86). -/
def State.incToL (s : State) : State := { s with l := s.inc }

/-- Phases 1 and 2 of every instruction but a taken CALL. -/
def State.advance (s : State) : State := s.latchInc.incToPc

/-- Write a fresh free value to a register: an "undefined" result (93_implementation_defined.md U1, U2; log 8, log 26). -/
def State.drawInto (s : State) (r : Reg) : State :=
  { s with draws := s.draws + 1 }.setReg r (Config.freeByte s.draws)

/-! ### A memory as a sorted list -/

/-- The value listed at an address. -/
def Memory.find {w : Nat} : Memory w → Nat → Option (BitVec w)
  | [], _ => none
  | (k, v) :: rest, a => if k = a then some v else Memory.find rest a

/-- List a value at an address, in order. -/
def Memory.put {w : Nat} : Memory w → Nat → BitVec w → Memory w
  | [], a, v => [(a, v)]
  | (k, x) :: rest, a, v =>
    if a < k then (a, v) :: (k, x) :: rest
    else if k = a then (a, v) :: rest
    else (k, x) :: Memory.put rest a v

/-- The addresses rise strictly from `lo` on and stay below 256. -/
def Memory.sortedFrom {w : Nat} : Nat → Memory w → Bool
  | _, [] => true
  | lo, (k, _) :: rest => decide (lo ≤ k) && decide (k < 256) && Memory.sortedFrom (k + 1) rest

/-- The canonical form of a memory. -/
def Memory.wf {w : Nat} (m : Memory w) : Bool := Memory.sortedFrom 0 m

/-! ### The address space (20_memory.md R31 to R36) -/

/-- Which memory answers an address: the first range that holds it, `none` where no range does (20_memory.md R31, R40). -/
def regionOf : List RegionRange → Byte → Region
  | [], _ => .none
  | r :: rest, a => if r.base ≤ a.toNat ∧ a.toNat < r.base + r.size then r.kind else regionOf rest a

/-- `REGION(addr)` of this machine. -/
def State.region (s : State) (a : Byte) : Region := regionOf s.cfg.region a

/-- `PMem[addr]`; a word nothing has filled is a free value (20_memory.md R30; log 12). -/
def State.progWord (s : State) (a : Byte) : Word :=
  (Memory.find s.pmem a.toNat).getD (Config.unwrittenWord a)

/-- `DMem[addr]`; a cell nothing has written is a free value (20_memory.md R30, 10_state.md R26; log 11). -/
def State.dataCell (s : State) (a : Byte) : Byte :=
  (Memory.find s.dmem a.toNat).getD (Config.unwrittenCell a)

/-- "Lower byte" of a program word, bits[7:0] (20_memory.md R32, D4; log 2). -/
def lowByte (w : Word) : Byte := w.extractLsb' 0 8

/-- bits[15:8] of a program word. -/
def highByte (w : Word) : Byte := w.extractLsb' 8 8

/-- `Fetch(addr)` at PC (20_memory.md R33). -/
def fetch (s : State) : Result Word :=
  match s.region s.pc with
  | .prog => .next (s.progWord s.pc)
  | .data => .refused .fetchFromData
  | .none => .refused .accessToUnmapped

/-- `MemRead(addr, 1)` (20_memory.md R34, R32). -/
def memRead (s : State) (a : Byte) : Result Byte :=
  match s.region a with
  | .data => .next (s.dataCell a)
  | .prog => .next (lowByte (s.progWord a))
  | .none => .refused .accessToUnmapped

/-- Write a data cell. -/
def State.setCell (s : State) (a v : Byte) : State :=
  { s with dmem := Memory.put s.dmem a.toNat v }

/-- Write a program word. -/
def State.setWord (s : State) (a : Byte) (w : Word) : State :=
  { s with pmem := Memory.put s.pmem a.toNat w }

/-- `MemWrite(addr, 1, v)` (20_memory.md R35); a `prog` address follows `STORE_TO_PROG`: refused, or the low byte of the word with the
upper byte left as it was (R36; log 5). -/
def memWrite (s : State) (a v : Byte) : Result State :=
  match s.region a with
  | .data => .next (s.setCell a v)
  | .prog =>
    match s.cfg.storeToProg with
    | .refuse => .refused .storeToProg
    | .writesLowByte => .next (s.setWord a (highByte (s.progWord a) ++ v))
  | .none => .refused .accessToUnmapped

end Sys2Proof.Machine
end

