-- ==== Sys2Proof/Machine/Operands.lean ====
section
/-! DEFINITION. The operand forms: the ALU's sources (10_state.md R19, 44_alu_binary.md R95), its destination (30_encoding.md R65), and
the two forms of LOAD and STORE (41_load_store.md R79). -/

namespace Sys2Proof.Machine

/-- `rd_alu(g)` (10_state.md R19), read in the state in which the instruction starts. PC follows `ALU_PC_READ` (log 6). -/
def aluRead (s : State) (g : Reg) : Result Byte :=
  if g = .pc then
    match s.cfg.aluPcRead with
    | .refuse => .refused .aluPcSource
    | .reads p => .next (match p with
      | .current => s.pc
      | .next => s.next)
  else .next (s.getReg g)

/-- The second operand of a binary ALU operation (44_alu_binary.md R95): a register, or a 3-bit immediate. -/
inductive Operand2 where
  | reg (y : Reg)
  | imm (i : BitVec 3)
  deriving DecidableEq, Repr

/-- The value of the second operand; the immediate is zero-extended (30_encoding.md R56, D25; log 18). -/
def aluReadOperand2 (s : State) : Operand2 → Result Byte
  | .reg y => aluRead s y
  | .imm i => .next (i.setWidth 8)

/-- Phase 2 of a binary ALU operation: the source values go into the ALU's internal registers (10_state.md R21). -/
def State.latchOperands (s : State) (v1 v2 : Byte) : State := { s with aluOp1 := v1, aluOp2 := v2 }

/-- Phase 2 of a unary ALU operation: it has one source value (10_state.md R21; log 21). -/
def State.latchOperand (s : State) (v : Byte) : State := { s with aluOp1 := v }

/-- `if r = 1 then wr(Gd, res)`; destination `F` writes no register (44_alu_binary.md R95, 30_encoding.md R65). -/
def State.writeDest (s : State) (gd : Dest) (v : Byte) : State :=
  match gd with
  | .f => s
  | .g r => s.setReg r v

/-- `v <- MemRead(addr, 1); wr(G, v)`, the Exec phase of LOAD (41_load_store.md R75, R76). -/
def loadFrom (s : State) (gd : Reg) (addr : Byte) : Result State :=
  andThen (memRead s addr) fun v => .next (s.setReg gd v)

/-- LOAD of a register through itself, taken in the narrow reading of 93_implementation_defined.md U2: the access is made as in
the pseudocode and the destination receives a free value (log 8). -/
def loadFree (s : State) (gd : Reg) (addr : Byte) : Result State :=
  andThen (memRead s addr) fun _ => .next (s.drawInto gd)

/-- `v <- rd(G); MemWrite(addr, 1, v)`, the Exec phase of STORE (41_load_store.md R77, R78). -/
def storeTo (s : State) (gs : Reg) (addr : Byte) : Result State :=
  memWrite s addr (s.getReg gs)

end Sys2Proof.Machine
end

