-- ==== Sys2Proof/Machine/Flags.lean ====
section
/-! DEFINITION. What the eleven ALU operations compute, result and flags (44_alu_binary.md R96 to R102, 45_alu_unary.md R111 to R114), the
frames that run them (R95, R110), and the conditions that read the flags (42_call_jump.md R85). -/

namespace Sys2Proof.Machine

/-- What an ALU operation computes: the 8-bit result and the three flags. -/
structure AluOut where
  res : Byte
  flags : Flags
  deriving DecidableEq, Repr

/-- A result with its carry; Z and S follow from it, "Z = (Res == 0)" and "S = Res >> 7" (44_alu_binary.md R95). -/
def aluOut (res : Byte) (cy : Bool) : AluOut := ⟨res, ⟨cy, res == 0, res.msb⟩⟩

/-- ADC, 44_alu_binary.md R96: exact sum, carry when it passes 255. -/
def aluAdc (v1 v2 : Byte) (cin : Bool) : AluOut :=
  let t := v1.toNat + v2.toNat + cin.toNat
  aluOut (BitVec.ofNat 8 t) (decide (256 ≤ t))

/-- ADD, 44_alu_binary.md R97. -/
def aluAdd (v1 v2 : Byte) (_cin : Bool) : AluOut :=
  let t := v1.toNat + v2.toNat
  aluOut (BitVec.ofNat 8 t) (decide (256 ≤ t))

/-- SBC, 44_alu_binary.md R98: exact difference, carry is the borrow (D26; log 17). -/
def aluSbc (v1 v2 : Byte) (cin : Bool) : AluOut :=
  let t : Int := (v1.toNat : Int) - v2.toNat - cin.toNat
  aluOut (BitVec.ofInt 8 t) (decide (t < 0))

/-- SUB, 44_alu_binary.md R99. -/
def aluSub (v1 v2 : Byte) (_cin : Bool) : AluOut :=
  let t : Int := (v1.toNat : Int) - v2.toNat
  aluOut (BitVec.ofInt 8 t) (decide (t < 0))

/-- AND, 44_alu_binary.md R100. -/
def aluAnd (v1 v2 : Byte) (_cin : Bool) : AluOut := aluOut (v1 &&& v2) false

/-- OR, 44_alu_binary.md R101. -/
def aluOr (v1 v2 : Byte) (_cin : Bool) : AluOut := aluOut (v1 ||| v2) false

/-- XOR, 44_alu_binary.md R102. -/
def aluXor (v1 v2 : Byte) (_cin : Bool) : AluOut := aluOut (v1 ^^^ v2) false

/-- `res[6:0] = g[7:1]` with `top` entering at bit 7 (45_alu_unary.md R112 to R114). -/
def shiftRightWith (top : Bool) (g : Byte) : Byte := BitVec.ofBool top ++ g.extractLsb' 1 7

/-- NOT, 45_alu_unary.md R111. -/
def aluNot (g : Byte) (_cin : Bool) : AluOut := aluOut (g ^^^ 0xFF) false

/-- ROR, 45_alu_unary.md R112: the carry is cleared and does not receive g[0]. -/
def aluRor (g : Byte) (_cin : Bool) : AluOut := aluOut (shiftRightWith (g.getLsbD 0) g) false

/-- SHR, 45_alu_unary.md R113; S = 0 is bit 7 of the result (90_conflicts.md C11). -/
def aluShr (g : Byte) (_cin : Bool) : AluOut := aluOut (shiftRightWith false g) (g.getLsbD 0)

/-- RCR, 45_alu_unary.md R114: the old carry enters at the top. -/
def aluRcr (g : Byte) (cin : Bool) : AluOut := aluOut (shiftRightWith cin g) (g.getLsbD 0)

/-- The Exec phase of an ALU operation: all three flags always, the register only when r = 1 (44_alu_binary.md R95). -/
def State.finishAlu (s : State) (gd : Dest) (r : AluOut) : State :=
  { s with flags := r.flags }.writeDest gd r.res

/-- The frame of a binary ALU operation (44_alu_binary.md R95): the sources are latched in phase 2, before the destination
is written in phase 3 (10_state.md R21, D21; log 27). -/
def aluBinary (f : Byte → Byte → Bool → AluOut) (gd : Dest) (x : Reg) (op2 : Operand2) (s : State) : Result State :=
  andThen (aluRead s x) fun v1 =>
    andThen (aluReadOperand2 s op2) fun v2 =>
      let s2 := s.advance.latchOperands v1 v2
      .next (s2.finishAlu gd (f s2.aluOp1 s2.aluOp2 s2.flags.cy))

/-- The frame of a unary ALU operation (45_alu_unary.md R110). -/
def aluUnary (f : Byte → Bool → AluOut) (gd : Dest) (gs : Reg) (s : State) : Result State :=
  andThen (aluRead s gs) fun v =>
    let s2 := s.advance.latchOperand v
    .next (s2.finishAlu gd (f s2.aluOp1 s2.flags.cy))

/-- `cond(c)` (42_call_jump.md R85). -/
def condHolds (cond : Cond) (f : Flags) : Bool :=
  match cond with
  | .always => true
  | .z => f.z
  | .ns => !f.s
  | .c => f.cy
  | .nc => !f.cy
  | .s => f.s
  | .nz => !f.z

end Sys2Proof.Machine
end

