-- ==== Sys2Proof/Machine/AluBinary.lean ====
section
/-! DEFINITION. The seven binary ALU operations in their register and immediate forms (44_alu_binary.md); CMP is SUB and TST is AND with
destination F (R103, R104). -/

namespace Sys2Proof.Machine

/-- ADC Gd/F, Op1, Op2, 44_alu_binary.md R96. -/
def execAdcReg (gd : Dest) (x y : Reg) (s : State) : Result State := aluBinary aluAdc gd x (.reg y) s

/-- ADC Gd/F, Op1, Imm3, 44_alu_binary.md R96. -/
def execAdcImm (gd : Dest) (x : Reg) (imm : BitVec 3) (s : State) : Result State := aluBinary aluAdc gd x (.imm imm) s

/-- ADD Gd/F, Op1, Op2, 44_alu_binary.md R97. -/
def execAddReg (gd : Dest) (x y : Reg) (s : State) : Result State := aluBinary aluAdd gd x (.reg y) s

/-- ADD Gd/F, Op1, Imm3, 44_alu_binary.md R97. -/
def execAddImm (gd : Dest) (x : Reg) (imm : BitVec 3) (s : State) : Result State := aluBinary aluAdd gd x (.imm imm) s

/-- SBC Gd/F, Op1, Op2, 44_alu_binary.md R98. -/
def execSbcReg (gd : Dest) (x y : Reg) (s : State) : Result State := aluBinary aluSbc gd x (.reg y) s

/-- SBC Gd/F, Op1, Imm3, 44_alu_binary.md R98. -/
def execSbcImm (gd : Dest) (x : Reg) (imm : BitVec 3) (s : State) : Result State := aluBinary aluSbc gd x (.imm imm) s

/-- SUB Gd/F, Op1, Op2, 44_alu_binary.md R99. -/
def execSubReg (gd : Dest) (x y : Reg) (s : State) : Result State := aluBinary aluSub gd x (.reg y) s

/-- SUB Gd/F, Op1, Imm3, 44_alu_binary.md R99. -/
def execSubImm (gd : Dest) (x : Reg) (imm : BitVec 3) (s : State) : Result State := aluBinary aluSub gd x (.imm imm) s

/-- AND Gd/F, Op1, Op2, 44_alu_binary.md R100. -/
def execAndReg (gd : Dest) (x y : Reg) (s : State) : Result State := aluBinary aluAnd gd x (.reg y) s

/-- AND Gd/F, Op1, Imm3, 44_alu_binary.md R100. -/
def execAndImm (gd : Dest) (x : Reg) (imm : BitVec 3) (s : State) : Result State := aluBinary aluAnd gd x (.imm imm) s

/-- OR Gd/F, Op1, Op2, 44_alu_binary.md R101. -/
def execOrReg (gd : Dest) (x y : Reg) (s : State) : Result State := aluBinary aluOr gd x (.reg y) s

/-- OR Gd/F, Op1, Imm3, 44_alu_binary.md R101. -/
def execOrImm (gd : Dest) (x : Reg) (imm : BitVec 3) (s : State) : Result State := aluBinary aluOr gd x (.imm imm) s

/-- XOR Gd/F, Op1, Op2, 44_alu_binary.md R102. -/
def execXorReg (gd : Dest) (x y : Reg) (s : State) : Result State := aluBinary aluXor gd x (.reg y) s

/-- XOR Gd/F, Op1, Imm3, 44_alu_binary.md R102. -/
def execXorImm (gd : Dest) (x : Reg) (imm : BitVec 3) (s : State) : Result State := aluBinary aluXor gd x (.imm imm) s

end Sys2Proof.Machine
end

