-- ==== Sys2Proof/Machine/AluUnary.lean ====
section
/-! DEFINITION. The four unary ALU operations (45_alu_unary.md). -/

namespace Sys2Proof.Machine

/-- NOT Gd/F, Gs, 45_alu_unary.md R111. -/
def execNot (gd : Dest) (gs : Reg) (s : State) : Result State := aluUnary aluNot gd gs s

/-- ROR Gd/F, Gs, 45_alu_unary.md R112. -/
def execRor (gd : Dest) (gs : Reg) (s : State) : Result State := aluUnary aluRor gd gs s

/-- SHR Gd/F, Gs, 45_alu_unary.md R113. -/
def execShr (gd : Dest) (gs : Reg) (s : State) : Result State := aluUnary aluShr gd gs s

/-- RCR Gd/F, Gs, 45_alu_unary.md R114. -/
def execRcr (gd : Dest) (gs : Reg) (s : State) : Result State := aluUnary aluRcr gd gs s

end Sys2Proof.Machine
end

