-- ==== Sys2Proof/Machine/Control.lean ====
section
/-! DEFINITION. NOP and HALT (40_halt_nop.md), CALL and JMP (42_call_jump.md). -/

namespace Sys2Proof.Machine

/-- NOP, 40_halt_nop.md R71: "Does nothing." in the Exec phase. -/
def execNop (s : State) : Result State := .next s.advance

/-- HALT, 40_halt_nop.md R70: the clock stops. Whether PC and INC have advanced is open, `HALT_PC` (log 7). -/
def execHalt (s : State) : Result State :=
  .next { s with
    halted := true
    pc := match s.cfg.haltPc with
      | .stays => s.pc
      | .advances => s.next
    inc := match s.cfg.haltPc, s.cfg.haltInc with
      | .advances, _ => s.next
      | .stays, .loaded => s.next
      | .stays, .stays => s.inc }

/-- JMP, 42_call_jump.md R87. -/
def execJmp (cond : Cond) (imm : Byte) (s : State) : Result State :=
  .next (if condHolds cond s.flags then s.advance.setReg .pc imm else s.advance)

/-- CALL, 42_call_jump.md R86: when the condition holds phase 2 sends INC to L, and phase 3 writes the address to PC. -/
def execCall (cond : Cond) (imm : Byte) (s : State) : Result State :=
  .next (if condHolds cond s.flags then s.latchInc.incToL.setReg .pc imm else s.advance)

end Sys2Proof.Machine
end

