-- ==== Sys2Proof/Machine/LoadStore.lean ====
section
/-! DEFINITION. LOAD, LOAD-Imm, STORE, STORE-Imm (41_load_store.md). -/

namespace Sys2Proof.Machine

/-- LOAD G, Imm, 41_load_store.md R76. -/
def execLoadImm (gd : Reg) (imm : Byte) (s : State) : Result State := loadFrom s.advance gd imm

/-- LOAD G, P, 41_load_store.md R75; PC as the pointer is `next` (D15; log 16). G = P: "Result of reading of register through itself
is undefined." (93_implementation_defined.md U2, D18; log 8). -/
def execLoad (gd : Reg) (p : Ptr) (s : State) : Result State :=
  if gd = p.reg then
    match s.cfg.undefinedResult with
    | .refuse => .refused .loadThroughItself
    | .freeValue => loadFree s.advance gd (s.advance.getReg p.reg)
  else loadFrom s.advance gd (s.advance.getReg p.reg)

/-- STORE G, Imm, 41_load_store.md R78. -/
def execStoreImm (gs : Reg) (imm : Byte) (s : State) : Result State := storeTo s.advance gs imm

/-- STORE G, P, 41_load_store.md R77; G = P is defined (corner case (a)). -/
def execStore (gs : Reg) (p : Ptr) (s : State) : Result State := storeTo s.advance gs (s.advance.getReg p.reg)

end Sys2Proof.Machine
end

