-- ==== Sys2Proof/Machine/Move.lean ====
section
/-! DEFINITION. MOVI and MOV, with RET (43_movi_mov.md). -/

namespace Sys2Proof.Machine

/-- MOVI, 43_movi_mov.md R90. -/
def execMovi (cond : Cond) (gd : Reg) (imm : Byte) (s : State) : Result State :=
  .next (if condHolds cond s.flags then s.advance.setReg gd imm else s.advance)

/-- MOV, 43_movi_mov.md R91; PC as the source reads as the address of the next instruction (10_state.md R18). Gd = Gs: "The result of
assignment register to itself is undefined." (93_implementation_defined.md U1, D18; log 8). -/
def execMov (gd gs : Reg) (s : State) : Result State :=
  if gd = gs then
    match s.cfg.undefinedResult with
    | .refuse => .refused .movToItself
    | .freeValue => .next (s.advance.drawInto gd)
  else .next (s.advance.setReg gd (s.advance.getReg gs))

end Sys2Proof.Machine
end

