-- ==== Sys2Proof/Machine/Dispatch.lean ====
section
/-! DEFINITION. One arm per constructor of Instr, each one call of that instruction's meaning. -/

namespace Sys2Proof.Machine

def exec (i : Instr) (s : State) : Host.Outcome State Fault Refusal :=
  match i with
  | .nop => Sys2Proof.Machine.execNop s
  | .halt => Sys2Proof.Machine.execHalt s
  | .mov gd gs => Sys2Proof.Machine.execMov gd gs s
  | .loadImm gd imm => Sys2Proof.Machine.execLoadImm gd imm s
  | .load gd p => Sys2Proof.Machine.execLoad gd p s
  | .storeImm gs imm => Sys2Proof.Machine.execStoreImm gs imm s
  | .store gs p => Sys2Proof.Machine.execStore gs p s
  | .adcReg gd x y => Sys2Proof.Machine.execAdcReg gd x y s
  | .adcImm gd x imm => Sys2Proof.Machine.execAdcImm gd x imm s
  | .addReg gd x y => Sys2Proof.Machine.execAddReg gd x y s
  | .addImm gd x imm => Sys2Proof.Machine.execAddImm gd x imm s
  | .sbcReg gd x y => Sys2Proof.Machine.execSbcReg gd x y s
  | .sbcImm gd x imm => Sys2Proof.Machine.execSbcImm gd x imm s
  | .subReg gd x y => Sys2Proof.Machine.execSubReg gd x y s
  | .subImm gd x imm => Sys2Proof.Machine.execSubImm gd x imm s
  | .andReg gd x y => Sys2Proof.Machine.execAndReg gd x y s
  | .andImm gd x imm => Sys2Proof.Machine.execAndImm gd x imm s
  | .orReg gd x y => Sys2Proof.Machine.execOrReg gd x y s
  | .orImm gd x imm => Sys2Proof.Machine.execOrImm gd x imm s
  | .xorReg gd x y => Sys2Proof.Machine.execXorReg gd x y s
  | .xorImm gd x imm => Sys2Proof.Machine.execXorImm gd x imm s
  | .not gd gs => Sys2Proof.Machine.execNot gd gs s
  | .ror gd gs => Sys2Proof.Machine.execRor gd gs s
  | .shr gd gs => Sys2Proof.Machine.execShr gd gs s
  | .rcr gd gs => Sys2Proof.Machine.execRcr gd gs s
  | .movi cond gd imm => Sys2Proof.Machine.execMovi cond gd imm s
  | .jmp cond imm => Sys2Proof.Machine.execJmp cond imm s
  | .call cond imm => Sys2Proof.Machine.execCall cond imm s

end Sys2Proof.Machine
end

