-- ==== Sys2Proof/Machine/Step.lean ====
section
/-! DEFINITION. One step: fetch at PC, decode, run the instruction (10_state.md R16). -/

namespace Sys2Proof.Machine

/-- Run a fetched word: its instruction, or the decoder's refusal by name. -/
def runWord (s : State) (w : Word) : Host.Outcome State Fault Refusal :=
  match decode s.cfg.dontCare w with
  | .ok i => exec i s
  | .error r => .refused (.encoding r)

/-- One step. A machine whose clock is stopped stays as it is (40_halt_nop.md R70, 60_exceptions.md R131; log 20). -/
def step (s : State) : Host.Outcome State Fault Refusal :=
  if s.halted then .next s else andThen (fetch s) (runWord s)

/-- `s` with a word stored at PC, so that the next step fetches and runs it: the launch of 70_reset_and_hazards.md R138 for one
instruction. The address is made a `prog` address if it is not one, and the clock runs. -/
def State.withFetchWord (s : State) (nbits w : Nat) : State :=
  { s with
    pmem := Memory.put s.pmem s.pc.toNat (BitVec.ofNat 16 (w % 2 ^ nbits))
    cfg := if s.region s.pc = .prog then s.cfg
      else { s.cfg with region := { base := s.pc.toNat, size := 1, kind := .prog } :: s.cfg.region }
    halted := false }

end Sys2Proof.Machine
end

