-- ==== Sys2Proof/Safety.lean ====
section
/-! DEFINITION. What counts as a safe run, and the words the claims are written in: the invariants of the state, what an instruction
leaves unchanged, and the effect of a register write, an ALU operation and a store. -/

namespace Sys2Proof.Machine

/-! ### Invariants -/

/-- Both memories are in canonical form. -/
def State.wf (s : State) : Bool := Memory.wf s.pmem && Memory.wf s.dmem

/-- Each memory lists only addresses that REGION gives to it: an address belongs to at most one of the two (20_memory.md R31). -/
def State.placed (s : State) : Bool :=
  s.pmem.all (fun e => s.region (BitVec.ofNat 8 e.1) == .prog) && s.dmem.all (fun e => s.region (BitVec.ofNat 8 e.1) == .data)

/-- The parameters under which the spec lists an effect for every defined operation: no address is unmapped, a STORE to program memory
writes the low byte, PC can be an ALU source, an undefined result is a free value. -/
def Effectful (cfg : Config) : Prop :=
  (∀ a, regionOf cfg.region a ≠ .none) ∧ cfg.storeToProg = .writesLowByte ∧ cfg.aluPcRead ≠ .refuse ∧
    cfg.undefinedResult = .freeValue

/-! ### What stays -/

/-- Every register but PC and those of `w` is unchanged. -/
def KeepsRegs (w : List Reg) (s t : State) : Prop := ∀ r, r ≠ .pc → r ∉ w → t.getReg r = s.getReg r

/-- Every data cell and every program word is unchanged. -/
def KeepsMem (s t : State) : Prop := (∀ a, t.dataCell a = s.dataCell a) ∧ (∀ a, t.progWord a = s.progWord a)

/-- The ALU's internal operand registers are unchanged. -/
def KeepsAlu (s t : State) : Prop := t.aluOp1 = s.aluOp1 ∧ t.aluOp2 = s.aluOp2

/-- The clock, the parameters and the free draws are unchanged, and INC holds what phase 1 loads it with (10_state.md R16). -/
def KeepsRun (s t : State) : Prop :=
  t.halted = s.halted ∧ t.cfg = s.cfg ∧ t.draws = s.draws ∧ t.inc = s.pc + 1

/-! ### What an instruction does to the registers -/

/-- No register written, and PC on the next instruction. -/
def MovedOn (s t : State) : Prop := t.pc = s.pc + 1 ∧ KeepsRegs [] s t

/-- `wr(r, v)` (10_state.md R20): the register holds `v`; PC is on the next instruction, unless it is the register. -/
def WroteReg (r : Reg) (v : Byte) (s t : State) : Prop :=
  t.getReg r = v ∧ (r ≠ .pc → t.pc = s.pc + 1) ∧ KeepsRegs [r] s t

/-- The write-back of an ALU operation (30_encoding.md R65). -/
def WroteDest (gd : Dest) (v : Byte) (s t : State) : Prop :=
  match gd with
  | .f => MovedOn s t
  | .g r => WroteReg r v s t

/-- Nothing but PC (and hidden INC) changed. -/
def OnlyMovedOn (s t : State) : Prop :=
  MovedOn s t ∧ t.flags = s.flags ∧ KeepsMem s t ∧ KeepsAlu s t ∧ KeepsRun s t

/-- Nothing but the register and PC (and hidden INC) changed. -/
def OnlyWrote (r : Reg) (v : Byte) (s t : State) : Prop :=
  WroteReg r v s t ∧ t.flags = s.flags ∧ KeepsMem s t ∧ KeepsAlu s t ∧ KeepsRun s t

/-- An ALU operation's whole effect: the destination holds `res`, the flags are CY = `cy`, Z = (res = 0), S = bit 7 of `res`, and
nothing else changed but PC, hidden INC and the ALU's own operand registers. -/
def AluEffect (gd : Dest) (res : Byte) (cy : Bool) (s t : State) : Prop :=
  WroteDest gd res s t ∧
    (t.flags.cy = cy ∧ (t.flags.z = true ↔ res = 0) ∧ t.flags.s = res.getLsbD 7) ∧
    KeepsMem s t ∧ KeepsRun s t

/-- A store's whole effect: the one location at `addr` holds `v` (in a program word, its low byte, 20_memory.md R36), every other
location of both memories is unchanged, and nothing else changed but PC and hidden INC. -/
def StoreEffect (addr v : Byte) (s t : State) : Prop :=
  (∀ a, t.dataCell a = if a = addr ∧ s.region addr = .data then v else s.dataCell a) ∧
    (∀ a, t.progWord a = if a = addr ∧ s.region addr = .prog then highByte (s.progWord addr) ++ v else s.progWord a) ∧
    MovedOn s t ∧ t.flags = s.flags ∧ KeepsAlu s t ∧ KeepsRun s t

/-- A store to `addr` has an effect: the address is data memory, or program memory that `STORE_TO_PROG` lets be written. -/
def Storable (s : State) (addr : Byte) : Prop :=
  s.region addr = .data ∨ s.region addr = .prog ∧ s.cfg.storeToProg = .writesLowByte

/-- What is stored at `addr` is read back: by a data read, and at a `prog` address by a fetch, as the low byte of the word
(20_memory.md R42, R45). -/
def ReadsBack (addr v : Byte) (s t : State) : Prop :=
  memRead t addr = .next v ∧
    (s.region addr = .prog → fetch { t with pc := addr } = .next (highByte (s.progWord addr) ++ v))

/-- `rd(g)` of 10_state.md R18, in the state in which the instruction starts. -/
def operand (s : State) (r : Reg) : Byte := if r = .pc then s.pc + 1 else s.getReg r

/-- The result is a free value: the register holds the next fresh free byte, one draw was made, and nothing else changed but PC and
hidden INC (93_implementation_defined.md U1, U2). -/
def DrewReg (r : Reg) (s t : State) : Prop :=
  WroteReg r (Config.freeByte s.draws) s t ∧ t.draws = s.draws + 1 ∧ t.flags = s.flags ∧ KeepsMem s t ∧ KeepsAlu s t ∧
    t.halted = s.halted ∧ t.cfg = s.cfg ∧ t.inc = s.pc + 1

/-- A binary ALU operation computes `res` and `cy` from its operands and the carry, in its register and its immediate form, for
every destination, whenever its sources can be read; and its two rows of opcode_table.json are the words that decode to it. -/
def BinaryOp (reg : Dest → Reg → Reg → Instr) (imm : Dest → Reg → BitVec 3 → Instr)
    (res : Byte → Byte → Bool → Byte) (cy : Byte → Byte → Bool → Bool) (regRow : Word) : Prop :=
  (∀ gd x y s v1 v2, aluRead s x = .next v1 → aluRead s y = .next v2 →
    ∃ t, exec (reg gd x y) s = .next t ∧ AluEffect gd (res v1 v2 s.flags.cy) (cy v1 v2 s.flags.cy) s t) ∧
  (∀ gd x i s v1, aluRead s x = .next v1 →
    ∃ t, exec (imm gd x i) s = .next t ∧
      AluEffect gd (res v1 (i.setWidth 8) s.flags.cy) (cy v1 (i.setWidth 8) s.flags.cy) s t) ∧
  (∀ w, w &&& 0xF880 = regRow ↔ ∃ gd x y, decode .ignore w = .ok (reg gd x y)) ∧
  (∀ w, w &&& 0xF880 = regRow ||| 0x0080 ↔ ∃ gd x i, decode .ignore w = .ok (imm gd x i))

/-- The same for a unary ALU operation. -/
def UnaryOp (mk : Dest → Reg → Instr) (res : Byte → Bool → Byte) (cy : Byte → Bool → Bool) (row : Word) : Prop :=
  (∀ gd g s v, aluRead s g = .next v →
    ∃ t, exec (mk gd g) s = .next t ∧ AluEffect gd (res v s.flags.cy) (cy v s.flags.cy) s t) ∧
  (∀ w, w &&& 0xF807 = row ↔ ∃ gd g, decode .ignore w = .ok (mk gd g))

/-! ### Classes of instructions -/

/-- The ALU operations (00_scope.md R2). -/
def isAlu : Instr → Bool
  | .nop => false
  | .halt => false
  | .mov _ _ => false
  | .loadImm _ _ => false
  | .load _ _ => false
  | .storeImm _ _ => false
  | .store _ _ => false
  | .adcReg _ _ _ => true
  | .adcImm _ _ _ => true
  | .addReg _ _ _ => true
  | .addImm _ _ _ => true
  | .sbcReg _ _ _ => true
  | .sbcImm _ _ _ => true
  | .subReg _ _ _ => true
  | .subImm _ _ _ => true
  | .andReg _ _ _ => true
  | .andImm _ _ _ => true
  | .orReg _ _ _ => true
  | .orImm _ _ _ => true
  | .xorReg _ _ _ => true
  | .xorImm _ _ _ => true
  | .not _ _ => true
  | .ror _ _ => true
  | .shr _ _ => true
  | .rcr _ _ => true
  | .movi _ _ _ => false
  | .jmp _ _ => false
  | .call _ _ => false

/-- The instructions that write memory (20_memory.md R35). -/
def isStore : Instr → Bool
  | .nop => false
  | .halt => false
  | .mov _ _ => false
  | .loadImm _ _ => false
  | .load _ _ => false
  | .storeImm _ _ => true
  | .store _ _ => true
  | .adcReg _ _ _ => false
  | .adcImm _ _ _ => false
  | .addReg _ _ _ => false
  | .addImm _ _ _ => false
  | .sbcReg _ _ _ => false
  | .sbcImm _ _ _ => false
  | .subReg _ _ _ => false
  | .subImm _ _ _ => false
  | .andReg _ _ _ => false
  | .andImm _ _ _ => false
  | .orReg _ _ _ => false
  | .orImm _ _ _ => false
  | .xorReg _ _ _ => false
  | .xorImm _ _ _ => false
  | .not _ _ => false
  | .ror _ _ => false
  | .shr _ _ => false
  | .rcr _ _ => false
  | .movi _ _ _ => false
  | .jmp _ _ => false
  | .call _ _ => false

/-- The source registers of an ALU operation (44_alu_binary.md R95, 45_alu_unary.md R110); other instructions have none. -/
def aluSources : Instr → List Reg
  | .nop => []
  | .halt => []
  | .mov _ _ => []
  | .loadImm _ _ => []
  | .load _ _ => []
  | .storeImm _ _ => []
  | .store _ _ => []
  | .adcReg _ x y => [x, y]
  | .adcImm _ x _ => [x]
  | .addReg _ x y => [x, y]
  | .addImm _ x _ => [x]
  | .sbcReg _ x y => [x, y]
  | .sbcImm _ x _ => [x]
  | .subReg _ x y => [x, y]
  | .subImm _ x _ => [x]
  | .andReg _ x y => [x, y]
  | .andImm _ x _ => [x]
  | .orReg _ x y => [x, y]
  | .orImm _ x _ => [x]
  | .xorReg _ x y => [x, y]
  | .xorImm _ x _ => [x]
  | .not _ g => [g]
  | .ror _ g => [g]
  | .shr _ g => [g]
  | .rcr _ g => [g]
  | .movi _ _ _ => []
  | .jmp _ _ => []
  | .call _ _ => []

/-- The data address an instruction accesses, as its meaning computes it (41_load_store.md R79). -/
def dataAddress (s : State) : Instr → Option Byte
  | .nop => none
  | .halt => none
  | .mov _ _ => none
  | .loadImm _ imm => some imm
  | .load _ p => some (s.advance.getReg p.reg)
  | .storeImm _ imm => some imm
  | .store _ p => some (s.advance.getReg p.reg)
  | .adcReg _ _ _ => none
  | .adcImm _ _ _ => none
  | .addReg _ _ _ => none
  | .addImm _ _ _ => none
  | .sbcReg _ _ _ => none
  | .sbcImm _ _ _ => none
  | .subReg _ _ _ => none
  | .subImm _ _ _ => none
  | .andReg _ _ _ => none
  | .andImm _ _ _ => none
  | .orReg _ _ _ => none
  | .orImm _ _ _ => none
  | .xorReg _ _ _ => none
  | .xorImm _ _ _ => none
  | .not _ _ => none
  | .ror _ _ => none
  | .shr _ _ => none
  | .rcr _ _ => none
  | .movi _ _ _ => none
  | .jmp _ _ => none
  | .call _ _ => none

/-- The registers an ALU destination names. -/
def destRegs : Dest → List Reg
  | .f => []
  | .g r => [r]

/-- The registers an instruction may write, besides PC's advance (10_state.md R29). -/
def writes : Instr → List Reg
  | .nop => []
  | .halt => []
  | .mov gd _ => [gd]
  | .loadImm gd _ => [gd]
  | .load gd _ => [gd]
  | .storeImm _ _ => []
  | .store _ _ => []
  | .adcReg gd _ _ => destRegs gd
  | .adcImm gd _ _ => destRegs gd
  | .addReg gd _ _ => destRegs gd
  | .addImm gd _ _ => destRegs gd
  | .sbcReg gd _ _ => destRegs gd
  | .sbcImm gd _ _ => destRegs gd
  | .subReg gd _ _ => destRegs gd
  | .subImm gd _ _ => destRegs gd
  | .andReg gd _ _ => destRegs gd
  | .andImm gd _ _ => destRegs gd
  | .orReg gd _ _ => destRegs gd
  | .orImm gd _ _ => destRegs gd
  | .xorReg gd _ _ => destRegs gd
  | .xorImm gd _ _ => destRegs gd
  | .not gd _ => destRegs gd
  | .ror gd _ => destRegs gd
  | .shr gd _ => destRegs gd
  | .rcr gd _ => destRegs gd
  | .movi _ gd _ => [gd]
  | .jmp _ _ => [.pc]
  | .call _ _ => [.l, .pc]

end Sys2Proof.Machine
end

