-- ==== Sys2Proof/Certificates/Slice0/Obligations.lean ====
section
/-! DEFINITION. The statements for the provers, from the rules of spec/; OBLIGATIONS.json lists them. Each holds in every state, reachable
or not, and for every choice of the parameters and of the free values unless its hypotheses say otherwise. -/

open Sys2Proof Sys2Proof.Machine

/-- For all parameters, RESET_PC, register values, flags, PMEM0 and DMEM0, the launch state has PC = RESET_PC, halted false, each
register, the flags, both memories and the parameters as given; State.reset starts at PC 0x00 with the clock running and nothing
listed in either memory (PC 0x00 is the spec's suggested default, log 10; the empty memories are log 11 and log 12). Spec decision
D13. Rests on 10_state.md section 6 (reset values), 70_reset_and_hazards.md section 1, 70_reset_and_hazards.md section 2 (the
host). -/
def Obligations.LaunchStateIsAsGiven : Prop :=
  (∀ cfg pc0 x f pm dm,
    let s := State.launch cfg pc0 x f pm dm
    s.pc = pc0 ∧ s.halted = false ∧ (∀ r, r ≠ .pc → s.getReg r = x r) ∧ s.flags = f ∧ s.pmem = pm ∧ s.dmem = dm ∧
      s.cfg = cfg) ∧
  State.reset.pc = 0x00 ∧ State.reset.halted = false ∧ State.reset.pmem = [] ∧ State.reset.dmem = []

/-- Both memories of State.reset are in canonical form, and each lists only addresses REGION gives to it. The canonical form is the
model's (State is plain data); that an address belongs to at most one memory is 20_memory.md section 1. Rests on 20_memory.md
section 1, 10_state.md section 6 (reset values). -/
def Obligations.ResetMeetsInvariants : Prop :=
  State.reset.wf = true ∧ State.reset.placed = true

/-- For every state with the clock running and PC a prog address, if the program word at PC decodes (under the machine's DONT_CARE) to
i, then step is exec i at that state: step adds nothing around exec; exec moves PC past the instruction. Rests on 10_state.md
section 2 (the three phases), 20_memory.md section 2 (Fetch). -/
def Obligations.StepRunsDecodedInstruction : Prop :=
  ∀ (s : State) (i : Instr), s.halted = false → s.region s.pc = .prog →
    decode s.cfg.dontCare (s.progWord s.pc) = .ok i → step s = exec i s

/-- For every state s and every word w that decodes to i, step (s.withFetchWord 16 w) is exec i at that state. The word at PC is w,
the clock runs and PC is a prog address; every register (PC included), the flags, INC, the ALU registers, the draw counter, every
data cell, every other program word, REGION at every other address and all other parameters are as in s; and where PC was a prog
address no parameter changed at all. withFetchWord is the model's stand-in for the load of a program, which the spec leaves to the
host (log 12). Rests on 70_reset_and_hazards.md section 2 (the host), 10_state.md section 2 (the three phases). -/
def Obligations.WithFetchWordRunsThatWord : Prop :=
  ∀ (s : State) (w : Word) (i : Instr), decode s.cfg.dontCare w = .ok i →
    let s' := s.withFetchWord 16 w.toNat
    step s' = exec i s' ∧ s'.progWord s.pc = w ∧ s'.halted = false ∧ s'.region s.pc = .prog ∧
      (∀ r, s'.getReg r = s.getReg r) ∧ s'.flags = s.flags ∧ s'.inc = s.inc ∧ KeepsAlu s s' ∧ s'.draws = s.draws ∧
      (∀ a, s'.dataCell a = s.dataCell a) ∧ (∀ a, a ≠ s.pc → s'.progWord a = s.progWord a ∧ s'.region a = s.region a) ∧
      { s'.cfg with region := s.cfg.region } = s.cfg ∧ (s.region s.pc = .prog → s'.cfg = s.cfg)

/-- With the clock running: PC a data address refuses with fetchFromData; PC an unmapped address refuses with accessToUnmapped; PC a
prog address whose word the decoder rejects with r refuses with that r. Spec decisions D10, D28 (log 13), D7 (log 14). Rests on
20_memory.md section 2 (Fetch), 30_encoding.md section 3, 93_implementation_defined.md section 3, 00_scope.md section 5 (outcomes
of a step). -/
def Obligations.FetchStopsByName : Prop :=
  ∀ s : State, s.halted = false →
    (s.region s.pc = .data → step s = .refused .fetchFromData) ∧
    (s.region s.pc = .none → step s = .refused .accessToUnmapped) ∧
    (∀ r, s.region s.pc = .prog → decode s.cfg.dontCare (s.progWord s.pc) = .error r → step s = .refused (.encoding r))

/-- For every state with halted true and every k, k steps answer that same state: no further fetch happens and all state survives.
That a step of a halted machine answers the same state is the model's choice (log 20); spec decision D12. Rests on 40_halt_nop.md
HALT, 60_exceptions.md section 5 (power and wait states). -/
def Obligations.HaltedMachineNeverMoves : Prop :=
  ∀ (s : State) (k : Nat), s.halted = true → Sys2Proof.core.run k s = .next s

/-- For every state whose program and data memory are lists with strictly rising addresses below 256, if step answers t then t's are
too. Rests on 20_memory.md section 1, 20_memory.md section 2. -/
def Obligations.StepKeepsMemoriesCanonical : Prop :=
  ∀ s t : State, s.wf = true → step s = .next t → t.wf = true

/-- For every state in which each listed program word has a prog address and each listed data cell a data address, if step answers t
then the same holds of t: an address belongs to at most one of the two memories, whatever a program stores. Rests on 20_memory.md
section 1, 20_memory.md section 2 (MemWrite). -/
def Obligations.StepKeepsMemoriesInTheirRegions : Prop :=
  ∀ s t : State, s.placed = true → step s = .next t → t.placed = true

/-- For every state, if step answers t then REGION, STORE_TO_PROG, ALU_PC_READ, HALT_PC, DONT_CARE and the model's own parameters (log
25) are the same in t. Rests on 00_scope.md section 4, 20_memory.md section 1 (REGION). -/
def Obligations.StepKeepsParameters : Prop :=
  ∀ s t : State, step s = .next t → t.cfg = s.cfg

/-- For every number of steps k: from a state whose STORE_TO_PROG is refuse, if k steps answer t, then t's program memory is the one
the run started with. Rests on 20_memory.md section 2 (a write to a program-memory address), 20_memory.md section 5 (instruction-
fetch coherence), 70_reset_and_hazards.md section 3. -/
def Obligations.RefusedStoresKeepProgramMemory : Prop :=
  ∀ (k : Nat) (s t : State), s.cfg.storeToProg = .refuse → Sys2Proof.core.run k s = .next t → t.pmem = s.pmem

/-- For every number of steps k, every state s and every address a, if k steps from s answer t, then bits 15 to 8 of the program word
at a are the same in s and t (a STORE to program memory leaves the upper byte as it was). Rests on 20_memory.md section 2 (a write
to a program-memory address), 20_memory.md section 1. -/
def Obligations.UpperBytesOfProgramNeverChange : Prop :=
  ∀ (k : Nat) (s t : State) (a : Byte), Sys2Proof.core.run k s = .next t →
    highByte (t.progWord a) = highByte (s.progWord a)

/-- For every instruction with every operand and every state whose parameters leave no address unmapped, let STORE write program
words, let PC be an ALU source and take an undefined result as a free value (the model's choices for reset, log 5, 6, 8), exec
answers a next state: nothing that has an effect in the spec is refused. Rests on 00_scope.md section 4, 00_scope.md section 5
(outcomes of a step), 93_implementation_defined.md section 3. -/
def Obligations.EveryInstructionCompletes : Prop :=
  ∀ (i : Instr) (s : State), Effectful s.cfg → ∃ t, exec i s = .next t

/-- For every instruction and state: exec refuses only as movToItself (MOV G, G under refuse), loadThroughItself (LOAD G through G
under refuse), aluPcSource (an ALU operation with PC among its source registers, under ALU_PC_READ = refuse), storeToProg (a STORE
whose own address is prog, under STORE_TO_PROG = refuse) or accessToUnmapped (a LOAD or STORE whose own address is none). The
address is the immediate, or for the pointer forms what the meaning reads from the pointer; no instruction faults. Spec decisions
D18, D14, D9, D28 (log 8, 6, 5, 13); the parameter of the undefined results is the model's (log 8). Rests on
93_implementation_defined.md section 3, 60_exceptions.md section 1, 20_memory.md section 2. -/
def Obligations.ExecStopsOnlyByTheListedReasons : Prop :=
  (∀ (i : Instr) (s : State) (r : Refusal), exec i s = .refused r →
    (r = .movToItself ∧ s.cfg.undefinedResult = .refuse ∧ ∃ g, i = .mov g g) ∨
    (r = .loadThroughItself ∧ s.cfg.undefinedResult = .refuse ∧ ∃ p : Ptr, i = .load p.reg p) ∨
    (r = .aluPcSource ∧ s.cfg.aluPcRead = .refuse ∧ .pc ∈ aluSources i) ∨
    (r = .storeToProg ∧ s.cfg.storeToProg = .refuse ∧ isStore i = true ∧ ∃ a, dataAddress s i = some a ∧ s.region a = .prog) ∨
    (r = .accessToUnmapped ∧ ∃ a, dataAddress s i = some a ∧ s.region a = .none)) ∧
  (∀ (i : Instr) (s : State) (f : Fault), exec i s ≠ .fault f)

/-- For every well-formed instruction (all 28 rows, every operand value) and both settings of DONT_CARE, the decoder reads the
encoder's word back as the same instruction. Rests on 30_encoding.md section 1, 30_encoding.md section 3 (decoding algorithm),
30_encoding.md section 4 (canonical encoding). -/
def Obligations.DecodeOfEncodeIsTheInstruction : Prop :=
  ∀ (dc : DontCare) (i : Instr), i.wellFormed = true → decode dc (encode i) = .ok i

/-- For every word w that decodes to i, the canonical word of i is w with the ignored bits of its form cleared, and with d = bits 10
to 8 cleared where the destination is F (spec decision D19, log 30). So two words mean the same instruction only if they differ in
ignored bits. Rests on 30_encoding.md section 1, 30_encoding.md section 4 (the destination F, canonical encoding). -/
def Obligations.EncodeOfDecodeIsTheWord : Prop :=
  ∀ (w : Word) (i : Instr), decode .ignore w = .ok i →
    encode i = w &&& ~~~(i.dashBits ||| if i.discards then 0x0700 else 0x0000)

/-- For every word w that decodes to i, w under the row's mask is the row's match (opcode_table.json), and i is well-formed (no MOVI
with destination PC: those words are JMP). Rests on 30_encoding.md section 1, 30_encoding.md section 3 (decoding algorithm). -/
def Obligations.DecodedWordLiesInItsTableRow : Prop :=
  ∀ (w : Word) (i : Instr), decode .ignore w = .ok i →
    w &&& i.tableRow.1 = i.tableRow.2 ∧ i.wellFormed = true

/-- For every word, under DONT_CARE = ignore: unassignedEncoding exactly for 00001..., for 1ccc1ddd with ccc and ddd not 111, and for
a unary code with bit 0 = 1; cond111 exactly for 1111...; pointerCode exactly for LOAD and STORE through a pointer field with bit
2 = 0; nonzeroDontCare never. Spec decisions D3, D6, D7, D30 (log 14). Rests on 30_encoding.md section 3, 90_conflicts.md C7. -/
def Obligations.UnassignedWordsAreExactlyThoseListed : Prop :=
  ∀ w : Word,
    (decode .ignore w = .error .unassignedEncoding ↔
      w &&& 0xF800 = 0x0800 ∨ (w &&& 0x8800 = 0x8800 ∧ w &&& 0x0700 ≠ 0x0700 ∧ w &&& 0x7000 ≠ 0x7000) ∨
        w &&& 0xF801 = 0x7801) ∧
    (decode .ignore w = .error .cond111 ↔ w &&& 0xF000 = 0xF000) ∧
    (decode .ignore w = .error .pointerCode ↔ w &&& 0xF804 = 0x2800 ∨ w &&& 0xF804 = 0x3800) ∧
    decode .ignore w ≠ .error .nonzeroDontCare

/-- For every word that decodes to i under ignore, must_be_zero answers i when the ignored bits of i's form are 0 and nonzeroDontCare
otherwise; a word rejected under ignore is rejected under must_be_zero too. Spec parameter DONT_CARE, D5 (log 3). Rests on
30_encoding.md section 1 (the - bits), 00_scope.md section 4. -/
def Obligations.MustBeZeroRefusesDashBits : Prop :=
  (∀ (w : Word) (i : Instr), decode .ignore w = .ok i →
    decode .mustBeZero w = if w &&& i.dashBits = 0 then .ok i else .error .nonzeroDontCare) ∧
  (∀ (w : Word) (r : EncodingReject), decode .ignore w = .error r → ∃ r', decode .mustBeZero w = .error r')

/-- RET, LOAD, STORE, ADC, SBC with immediate 7, CMP, TST, RCR to PC, MOVI, JMP and CALL words of 95_test_vectors.md, and four refused
words. They rest on the register codes and bit order of the spec (D2, D4; log 1, 2) and on D7, D30, D6, D3 (log 14). Rests on
95_test_vectors.md section 2.1, 95_test_vectors.md section 2.2. -/
def Obligations.WordsOfTheSpecDecode : Prop :=
  decode .ignore 0x1F60 = .ok (.mov .pc .l) ∧ decode .ignore 0x2242 = .ok (.loadImm .c 0x42) ∧
  decode .ignore 0x2B06 = .ok (.load .d .l) ∧ decode .ignore 0x3807 = .ok (.store .a .pc) ∧
  decode .ignore 0x401A = .ok (.adcReg (.g .a) .b .c) ∧ decode .ignore 0x53BF = .ok (.sbcImm (.g .d) .d 7) ∧
  decode .ignore 0x5F01 = .ok (.subReg .f .a .b) ∧ decode .ignore 0x6023 = .ok (.andReg .f .c .d) ∧
  decode .ignore 0x7F0E = .ok (.rcr (.g .pc) .a) ∧ decode .ignore 0xD505 = .ok (.movi .s .s 5) ∧
  decode .ignore 0xE730 = .ok (.jmp .nz 0x30) ∧ decode .ignore 0xBF50 = .ok (.call .c 0x50) ∧
  decode .ignore 0x0800 = .error .unassignedEncoding ∧ decode .ignore 0x7809 = .error .unassignedEncoding ∧
  decode .ignore 0xF810 = .error .cond111 ∧ decode .ignore 0x2903 = .error .pointerCode

/-- A (000) always; Z (001) Z=1; NS (010) S=0; C (011) CY=1; NC (100) CY=0; S (101) S=1; NZ (110) Z=0, as functions of the flags only;
a word of the conditional group with code 111 is rejected as cond111 (spec decision D6, log 14); MOVI, JMP and CALL do not change
the flags they test (D20, log 15). Rests on 42_call_jump.md the condition field, 30_encoding.md section 3. -/
def Obligations.ConditionsReadTheirFlag : Prop :=
  (∀ f : Flags,
    condHolds .always f = true ∧ (condHolds .z f = true ↔ f.z = true) ∧ (condHolds .ns f = true ↔ f.s = false) ∧
    (condHolds .c f = true ↔ f.cy = true) ∧ (condHolds .nc f = true ↔ f.cy = false) ∧
    (condHolds .s f = true ↔ f.s = true) ∧ (condHolds .nz f = true ↔ f.z = false)) ∧
  [0, 1, 2, 3, 4, 5, 6, 7].map (fun n => Cond.ofCode (BitVec.ofNat 3 n)) =
    [some .always, some .z, some .ns, some .c, some .nc, some .s, some .nz, none] ∧
  (∀ (dc : DontCare) (w : Word), field w 15 1 = 1 → field w 12 3 = 7 → decode dc w = .error .cond111) ∧
  (∀ (cond : Cond) (gd : Reg) (imm : Byte) (s t : State),
    exec (.movi cond gd imm) s = .next t ∨ exec (.jmp cond imm) s = .next t ∨ exec (.call cond imm) s = .next t →
      t.flags = s.flags)

/-- The operand read the meanings of MOV, STORE and the pointer of LOAD and STORE use gives the register, or (pc + 1) mod 256 for PC.
Spec decisions D15, D11 (log 16, 19). Rests on 10_state.md section 2 (reading PC as an operand). -/
def Obligations.OperandReadOfPcIsNext : Prop :=
  ∀ (s : State) (r : Reg), s.advance.getReg r = operand s r ∧ (operand s .pc).toNat = (s.pc.toNat + 1) % 256

/-- For every state: a source register other than PC reads as itself; PC is refused, pc or pc + 1 as the parameter is refuse, current
or next. Spec decision D14 (log 6). Rests on 10_state.md section 2 (reading PC as an ALU source operand). -/
def Obligations.AluSourceReadFollowsParameter : Prop :=
  ∀ s : State,
    (∀ g, g ≠ .pc → aluRead s g = .next (s.getReg g)) ∧
    (s.cfg.aluPcRead = .refuse → aluRead s .pc = .refused .aluPcSource) ∧
    (s.cfg.aluPcRead = .reads .current → aluRead s .pc = .next s.pc) ∧
    (s.cfg.aluPcRead = .reads .next → aluRead s .pc = .next (s.pc + 1))

/-- For every state and address: data reads the cell, prog reads bits 7 to 0 of the program word, none refuses with accessToUnmapped
(D28, log 13). That bits 7 to 0 are the lower byte is D4 (log 2). Rests on 20_memory.md section 2 (MemRead), 20_memory.md section
1. -/
def Obligations.DataReadSeesItsRegion : Prop :=
  ∀ (s : State) (a : Byte),
    (s.region a = .data → memRead s a = .next (s.dataCell a)) ∧
    (s.region a = .prog → memRead s a = .next ((s.progWord a).setWidth 8)) ∧
    (s.region a = .none → memRead s a = .refused .accessToUnmapped)

/-- For every state exec of NOP answers a state with PC = (pc + 1) mod 256 and every register, flag, memory location and parameter
unchanged; every word with bits 15 to 11 = 00000 decodes to NOP under DONT_CARE = ignore, and nothing else does. Hidden INC holds
pc + 1. A data read of a prog address that holds a NOP word gives its bits 7 to 0. The advance in phases 1 and 2 is the spec's
derivation from the three phases; mod 256 is D11 (log 19), the ignored bits are DONT_CARE (D5, log 3), bits 7 to 0 as the lower
byte are D4 (log 2). Rests on 40_halt_nop.md NOP, 10_state.md section 2 (the three phases), 20_memory.md section 2 (MemRead). -/
def Obligations.NopOnlyMovesOn : Prop :=
  (∀ s : State, ∃ t, exec .nop s = .next t ∧ OnlyMovedOn s t ∧ t.pc.toNat = (s.pc.toNat + 1) % 256) ∧
  (∀ w : Word, w &&& 0xF800 = 0x0000 ↔ decode .ignore w = .ok .nop) ∧
  encode .nop = 0x0000 ∧
  (∀ (s : State) (a : Byte), s.region a = .prog → decode .ignore (s.progWord a) = .ok .nop →
    memRead s a = .next (lowByte (s.progWord a)))

/-- For every state exec of HALT answers a state with halted true, A to L, the flags, both memories, the parameters and the ALU
registers unchanged, and PC = pc under HALT_PC = stays and pc + 1 under advances; INC is unchanged or pc + 1. HALT_PC and INC
after HALT are open (D12, log 7). Rests on 40_halt_nop.md HALT, 10_state.md section 5 (the run bit). -/
def Obligations.HaltStopsTheClock : Prop :=
  ∀ s : State, ∃ t, exec .halt s = .next t ∧ t.halted = true ∧ KeepsRegs [] s t ∧ t.flags = s.flags ∧ KeepsMem s t ∧
    KeepsAlu s t ∧ t.cfg = s.cfg ∧ t.draws = s.draws ∧
    (s.cfg.haltPc = .stays → t.pc = s.pc) ∧ (s.cfg.haltPc = .advances → t.pc = s.pc + 1) ∧
    (t.inc = s.inc ∨ t.inc = s.pc + 1)

/-- For every state and two different registers, exec of MOV answers a state in which only Gd changed: it holds the source, which is
pc + 1 when Gs is PC; when Gd is PC the value is the next PC, otherwise PC = pc + 1. Flags unchanged (D20, log 15). Rests on
43_movi_mov.md MOV Gd, Gs, 10_state.md section 2 (reading PC as an operand), 10_state.md section 2 (writing a destination). -/
def Obligations.MovCopiesTheSource : Prop :=
  ∀ (gd gs : Reg) (s : State), gd ≠ gs → ∃ t, exec (.mov gd gs) s = .next t ∧ OnlyWrote gd (operand s gs) s t

/-- The word 0x1F60 decodes to MOV PC, L, which sets PC to the value of L, leaves L and every other register, the flags and the
memories unchanged. Rests on 43_movi_mov.md RET. -/
def Obligations.RetJumpsToLink : Prop :=
  decode .ignore 0x1F60 = .ok (.mov .pc .l) ∧
  ∀ s : State, ∃ t, exec (.mov .pc .l) s = .next t ∧ t.pc = s.l ∧ t.l = s.l ∧ OnlyWrote .pc s.l s t

/-- For every register and state: under undefinedResult = refuse (spec decision D18) exec refuses with movToItself; under freeValue
(the narrower reading of U1, the model's own assumption, log 8) it answers a state in which only that register changed, to a fresh
free byte (for PC: the next PC). Rests on 43_movi_mov.md MOV Gd, Gs, corner case (a), 93_implementation_defined.md section 1 (U1). -/
def Obligations.MovToItselfIsRefusedOrFree : Prop :=
  ∀ (g : Reg) (s : State),
    (s.cfg.undefinedResult = .refuse → exec (.mov g g) s = .refused .movToItself) ∧
    (s.cfg.undefinedResult = .freeValue → ∃ t, exec (.mov g g) s = .next t ∧ DrewReg g s t)

/-- For every destination, address and state in which the data read of the address answers v, exec answers a state in which only G
changed, to v, and PC = pc + 1 (or v when G is PC); where nothing answers the address it refuses with accessToUnmapped (D28, log
13). Flags unchanged (D20, log 15). Rests on 41_load_store.md LOAD G, Imm, 20_memory.md section 2 (MemRead). -/
def Obligations.LoadImmReadsTheAddress : Prop :=
  ∀ (gd : Reg) (imm : Byte) (s : State),
    (∀ v, memRead s imm = .next v → ∃ t, exec (.loadImm gd imm) s = .next t ∧ OnlyWrote gd v s t) ∧
    (s.region imm = .none → exec (.loadImm gd imm) s = .refused .accessToUnmapped)

/-- For every pointer P, destination G other than P and state in which the data read at P's operand value answers v, exec answers a
state in which only G changed, to v; the pointer keeps its value; where nothing answers the address it refuses with
accessToUnmapped (D28, log 13). Flags unchanged (D20, log 15). Rests on 41_load_store.md LOAD G, P, 10_state.md section 2 (reading
PC as an operand). -/
def Obligations.LoadReadsThroughThePointer : Prop :=
  ∀ (gd : Reg) (p : Ptr) (s : State), gd ≠ p.reg →
    (∀ v, memRead s (operand s p.reg) = .next v → ∃ t, exec (.load gd p) s = .next t ∧ OnlyWrote gd v s t) ∧
    (s.region (operand s p.reg) = .none → exec (.load gd p) s = .refused .accessToUnmapped)

/-- For every pointer and state: under undefinedResult = refuse (D18) exec refuses with loadThroughItself; under freeValue (U2, the
model's own assumption, log 8) at a mapped address only that register changes, to a fresh free byte, and at an unmapped one it
refuses with accessToUnmapped as any LOAD (D28, log 13). Rests on 41_load_store.md LOAD G, P, corner case (a),
93_implementation_defined.md section 1 (U2). -/
def Obligations.LoadThroughItselfIsRefusedOrFree : Prop :=
  ∀ (p : Ptr) (s : State),
    (s.cfg.undefinedResult = .refuse → exec (.load p.reg p) s = .refused .loadThroughItself) ∧
    (s.cfg.undefinedResult = .freeValue → s.region (operand s p.reg) ≠ .none →
      ∃ t, exec (.load p.reg p) s = .next t ∧ DrewReg p.reg s t) ∧
    (s.cfg.undefinedResult = .freeValue → s.region (operand s p.reg) = .none →
      exec (.load p.reg p) s = .refused .accessToUnmapped)

/-- For every register, address or pointer and state whose address is data, or prog with STORE_TO_PROG = writes_low_byte, exec answers
a state in which the one cell (or the low byte of the one program word) at the address the meaning computes holds the register (pc
+ 1 for PC), every other cell and word reads as before, PC = pc + 1, and registers and flags are unchanged (D20, log 15). G = P is
covered. PC as a source or pointer is next by D15 (log 16). Rests on 41_load_store.md STORE G, P, 41_load_store.md STORE G, Imm,
20_memory.md section 2 (MemWrite). -/
def Obligations.StoresWriteOneLocation : Prop :=
  (∀ (gs : Reg) (imm : Byte) (s : State), Storable s imm →
    ∃ t, exec (.storeImm gs imm) s = .next t ∧ StoreEffect imm (operand s gs) s t) ∧
  (∀ (gs : Reg) (p : Ptr) (s : State), Storable s (s.advance.getReg p.reg) →
    ∃ t, exec (.store gs p) s = .next t ∧ StoreEffect (s.advance.getReg p.reg) (operand s gs) s t)

/-- For both forms, every register and state: storeToProg where the address is prog and the parameter is refuse (D9, log 5),
accessToUnmapped where nothing answers (D28, log 13). Rests on 20_memory.md section 2 (MemWrite), 20_memory.md section 2 (a write
to a program-memory address). -/
def Obligations.StoresStopByName : Prop :=
  (∀ (gs : Reg) (imm : Byte) (s : State),
    (s.region imm = .prog → s.cfg.storeToProg = .refuse → exec (.storeImm gs imm) s = .refused .storeToProg) ∧
    (s.region imm = .none → exec (.storeImm gs imm) s = .refused .accessToUnmapped)) ∧
  (∀ (gs : Reg) (p : Ptr) (s : State),
    (s.region (operand s p.reg) = .prog → s.cfg.storeToProg = .refuse → exec (.store gs p) s = .refused .storeToProg) ∧
    (s.region (operand s p.reg) = .none → exec (.store gs p) s = .refused .accessToUnmapped))

/-- For both forms of STORE, every register and state, if exec answers t then a data read in t of the address stored to (the
immediate, or what the meaning reads from the pointer) gives the value stored; and where it is a prog address, a fetch with PC
there gives the old upper byte with the stored low byte. Spec decisions D22, D23 (log 22, 28). Rests on 20_memory.md section 5
(memory consistency), 20_memory.md section 5 (instruction-fetch coherence). -/
def Obligations.LoadAndFetchSeeTheStore : Prop :=
  (∀ (gs : Reg) (imm : Byte) (s t : State), exec (.storeImm gs imm) s = .next t → ReadsBack imm (operand s gs) s t) ∧
  (∀ (gs : Reg) (p : Ptr) (s t : State), exec (.store gs p) s = .next t →
    ReadsBack (s.advance.getReg p.reg) (operand s gs) s t)

/-- For every condition, destination, immediate and state exec answers a state: with the condition true only Gd changed, to the
immediate (a jump when Gd is PC); with it false only PC moved on. Flags unchanged (D20, log 15). Rests on 43_movi_mov.md MOVI,
42_call_jump.md the condition field. -/
def Obligations.MoviWritesWhenConditionHolds : Prop :=
  ∀ (cond : Cond) (gd : Reg) (imm : Byte) (s : State), ∃ t, exec (.movi cond gd imm) s = .next t ∧
    (condHolds cond s.flags = true → OnlyWrote gd imm s t) ∧ (condHolds cond s.flags = false → OnlyMovedOn s t)

/-- For every condition, address and state exec of JMP answers a state: with the condition true PC is the address and nothing else
changed (L included), with it false only PC moved on; and it is the same outcome as MOVI with destination PC. Flags unchanged
(D20, log 15). Rests on 42_call_jump.md JMP, 30_encoding.md section 2 (JMP is a MOVI). -/
def Obligations.JmpJumpsWhenConditionHolds : Prop :=
  ∀ (cond : Cond) (imm : Byte) (s : State),
    (∃ t, exec (.jmp cond imm) s = .next t ∧
      (condHolds cond s.flags = true → OnlyWrote .pc imm s t ∧ t.pc = imm) ∧
      (condHolds cond s.flags = false → OnlyMovedOn s t)) ∧
    exec (.jmp cond imm) s = exec (.movi cond .pc imm) s

/-- For every condition, address and state exec of CALL answers a state: with the condition true L = (pc + 1) mod 256, PC is the
address and nothing else changed; with it false only PC moved on. Flags unchanged (D20, log 15), no memory written. Rests on
42_call_jump.md CALL, 10_state.md section 2 (the three phases). -/
def Obligations.CallLinksAndJumpsWhenConditionHolds : Prop :=
  ∀ (cond : Cond) (imm : Byte) (s : State), ∃ t, exec (.call cond imm) s = .next t ∧
    (condHolds cond s.flags = true →
      t.l.toNat = (s.pc.toNat + 1) % 256 ∧ t.pc = imm ∧ KeepsRegs [.l] s t ∧ t.flags = s.flags ∧ KeepsMem s t ∧
        KeepsAlu s t ∧ KeepsRun s t) ∧
    (condHolds cond s.flags = false → OnlyMovedOn s t)

/-- For every destination, source registers and state whose sources can be read (a register, or PC as ALU_PC_READ says), in the
register and the immediate form (immediate 0 to 7, zero-extended, spec decision D25, log 18): exec answers a state in which the
result is (op1 + op2 + CY) mod 256 and CY = 1 exactly when the exact sum is at least 256. All of Z (result zero) and S (bit 7)
follow the result; Gd holds the result when r = 1 (a jump when Gd is PC) and no register is written for F; every other register
and both memories are unchanged; and the two opcode rows are exactly the words that decode to it. Rests on 44_alu_binary.md
section 1 (the common frame), 44_alu_binary.md section 2 (ADC). -/
def Obligations.AdcAddsWithCarry : Prop :=
  BinaryOp .adcReg .adcImm
    (fun v1 v2 cin => v1 + v2 + BitVec.ofNat 8 cin.toNat)
    (fun v1 v2 cin => decide (256 ≤ v1.toNat + v2.toNat + cin.toNat)) 0x4000

/-- For every destination, source registers and state whose sources can be read (a register, or PC as ALU_PC_READ says), in the
register and the immediate form (immediate 0 to 7, zero-extended, spec decision D25, log 18): exec answers a state in which the
result is (op1 + op2) mod 256 and CY = 1 exactly when the exact sum is at least 256. All of Z (result zero) and S (bit 7) follow
the result; Gd holds the result when r = 1 (a jump when Gd is PC) and no register is written for F; every other register and both
memories are unchanged; and the two opcode rows are exactly the words that decode to it. Rests on 44_alu_binary.md section 1 (the
common frame), 44_alu_binary.md section 2 (ADD). -/
def Obligations.AddAddsWithoutCarry : Prop :=
  BinaryOp .addReg .addImm
    (fun v1 v2 _cin => v1 + v2)
    (fun v1 v2 _cin => decide (256 ≤ v1.toNat + v2.toNat)) 0x4800

/-- For every destination, source registers and state whose sources can be read (a register, or PC as ALU_PC_READ says), in the
register and the immediate form (immediate 0 to 7, zero-extended, spec decision D25, log 18): exec answers a state in which the
result is (op1 - op2 - CY) mod 256 and CY = 1 exactly when op2 + CY is greater than op1. All of Z (result zero) and S (bit 7)
follow the result; Gd holds the result when r = 1 (a jump when Gd is PC) and no register is written for F; every other register
and both memories are unchanged; and the two opcode rows are exactly the words that decode to it. CY as the borrow is the spec's
reading D26 (log 17). Rests on 44_alu_binary.md section 1 (the common frame), 44_alu_binary.md section 2 (SBC). -/
def Obligations.SbcSubtractsWithBorrow : Prop :=
  BinaryOp .sbcReg .sbcImm
    (fun v1 v2 cin => v1 - v2 - BitVec.ofNat 8 cin.toNat)
    (fun v1 v2 cin => decide (v1.toNat < v2.toNat + cin.toNat)) 0x5000

/-- For every destination, source registers and state whose sources can be read (a register, or PC as ALU_PC_READ says), in the
register and the immediate form (immediate 0 to 7, zero-extended, spec decision D25, log 18): exec answers a state in which the
result is (op1 - op2) mod 256 and CY = 1 exactly when op2 is greater than op1 (unsigned). All of Z (result zero) and S (bit 7)
follow the result; Gd holds the result when r = 1 (a jump when Gd is PC) and no register is written for F; every other register
and both memories are unchanged; and the two opcode rows are exactly the words that decode to it. CY as the borrow is the spec's
reading D26 (log 17). Rests on 44_alu_binary.md section 1 (the common frame), 44_alu_binary.md section 2 (SUB). -/
def Obligations.SubSubtractsWithBorrowOut : Prop :=
  BinaryOp .subReg .subImm
    (fun v1 v2 _cin => v1 - v2)
    (fun v1 v2 _cin => decide (v1.toNat < v2.toNat)) 0x5800

/-- For every destination, source registers and state whose sources can be read (a register, or PC as ALU_PC_READ says), in the
register and the immediate form (immediate 0 to 7, zero-extended, spec decision D25, log 18): exec answers a state in which the
result is op1 AND op2 and CY = 0. All of Z (result zero) and S (bit 7) follow the result; Gd holds the result when r = 1 (a jump
when Gd is PC) and no register is written for F; every other register and both memories are unchanged; and the two opcode rows are
exactly the words that decode to it. Rests on 44_alu_binary.md section 1 (the common frame), 44_alu_binary.md section 2 (AND). -/
def Obligations.AndClearsCarry : Prop :=
  BinaryOp .andReg .andImm
    (fun v1 v2 _cin => v1 &&& v2)
    (fun _v1 _v2 _cin => false) 0x6000

/-- For every destination, source registers and state whose sources can be read (a register, or PC as ALU_PC_READ says), in the
register and the immediate form (immediate 0 to 7, zero-extended, spec decision D25, log 18): exec answers a state in which the
result is op1 OR op2 and CY = 0. All of Z (result zero) and S (bit 7) follow the result; Gd holds the result when r = 1 (a jump
when Gd is PC) and no register is written for F; every other register and both memories are unchanged; and the two opcode rows are
exactly the words that decode to it. Rests on 44_alu_binary.md section 1 (the common frame), 44_alu_binary.md section 2 (OR). -/
def Obligations.OrClearsCarry : Prop :=
  BinaryOp .orReg .orImm
    (fun v1 v2 _cin => v1 ||| v2)
    (fun _v1 _v2 _cin => false) 0x6800

/-- For every destination, source registers and state whose sources can be read (a register, or PC as ALU_PC_READ says), in the
register and the immediate form (immediate 0 to 7, zero-extended, spec decision D25, log 18): exec answers a state in which the
result is op1 XOR op2 and CY = 0. All of Z (result zero) and S (bit 7) follow the result; Gd holds the result when r = 1 (a jump
when Gd is PC) and no register is written for F; every other register and both memories are unchanged; and the two opcode rows are
exactly the words that decode to it. Rests on 44_alu_binary.md section 1 (the common frame), 44_alu_binary.md section 2 (XOR). -/
def Obligations.XorClearsCarry : Prop :=
  BinaryOp .xorReg .xorImm
    (fun v1 v2 _cin => v1 ^^^ v2)
    (fun _v1 _v2 _cin => false) 0x7000

/-- For every destination, source register and state whose source can be read (a register, or PC as ALU_PC_READ says): exec answers a
state in which every bit of the result is the inverse of the source's and CY = 0. Z (result zero) and S (bit 7) follow the result;
Gd holds the result when r = 1 (a jump when Gd is PC) and no register is written for F; every other register and both memories are
unchanged; and the opcode row is exactly the words that decode to it. Formalises R111 of spec/. -/
def Obligations.NotComplementsEveryBit : Prop :=
  UnaryOp .not
    (fun v _cin => ~~~v)
    (fun _v _cin => false) 0x7800

/-- For every destination, source register and state whose source can be read (a register, or PC as ALU_PC_READ says): exec answers a
state in which the result is the source rotated right by one and CY = 0 (it does not receive bit 0). Z (result zero) and S (bit 7)
follow the result; Gd holds the result when r = 1 (a jump when Gd is PC) and no register is written for F; every other register
and both memories are unchanged; and the opcode row is exactly the words that decode to it. Formalises R112 of spec/. -/
def Obligations.RorRotatesAndClearsCarry : Prop :=
  UnaryOp .ror
    (fun v _cin => v.rotateRight 1)
    (fun _v _cin => false) 0x7802

/-- For every destination, source register and state whose source can be read (a register, or PC as ALU_PC_READ says): exec answers a
state in which the result is floor(source / 2) and CY = bit 0 of the source. Z (result zero) and S (bit 7) follow the result; Gd
holds the result when r = 1 (a jump when Gd is PC) and no register is written for F; every other register and both memories are
unchanged; and the opcode row is exactly the words that decode to it. Formalises R113 of spec/. -/
def Obligations.ShrShiftsBitZeroIntoCarry : Prop :=
  UnaryOp .shr
    (fun v _cin => v >>> 1)
    (fun v _cin => v.getLsbD 0) 0x7804

/-- For every destination, source register and state whose source can be read (a register, or PC as ALU_PC_READ says): exec answers a
state in which the result is floor(source / 2), plus 128 when CY was 1, and CY = bit 0 of the source. Z (result zero) and S (bit
7) follow the result; Gd holds the result when r = 1 (a jump when Gd is PC) and no register is written for F; every other register
and both memories are unchanged; and the opcode row is exactly the words that decode to it. Formalises R114 of spec/. -/
def Obligations.RcrRotatesThroughCarry : Prop :=
  UnaryOp .rcr
    (fun v cin => (v >>> 1) ||| (if cin then 0x80 else 0x00))
    (fun v _cin => v.getLsbD 0) 0x7806

/-- For all eleven operations and every state with the parameter refuse: PC as first source, as second register source or as the unary
source refuses with aluPcSource; the immediate form with a first source other than PC answers a next state for every immediate, 7
included. Spec decision D14 (log 6), and D25 (log 18) for the immediate. Rests on 10_state.md section 2 (reading PC as an ALU
source operand), 44_alu_binary.md section 1, 45_alu_unary.md UOP Gd, Gs. -/
def Obligations.AluWithPcSourceIsRefused : Prop :=
  ∀ s : State, s.cfg.aluPcRead = .refuse →
    (∀ mk ∈ ([.adcReg, .addReg, .sbcReg, .subReg, .andReg, .orReg, .xorReg] : List (Dest → Reg → Reg → Instr)),
      ∀ gd x y, x = .pc ∨ y = .pc → exec (mk gd x y) s = .refused .aluPcSource) ∧
    (∀ mk ∈ ([.adcImm, .addImm, .sbcImm, .subImm, .andImm, .orImm, .xorImm] : List (Dest → Reg → BitVec 3 → Instr)),
      ∀ gd x i, (x = .pc → exec (mk gd x i) s = .refused .aluPcSource) ∧ (x ≠ .pc → ∃ t, exec (mk gd x i) s = .next t)) ∧
    (∀ mk ∈ ([.not, .ror, .shr, .rcr] : List (Dest → Reg → Instr)), ∀ gd, exec (mk gd .pc) s = .refused .aluPcSource)

/-- For all eleven operations and every state: if exec answers t then the internal registers hold the source values read; a unary
operation has one source and keeps the other register (the model's choice, log 21). Rests on 10_state.md section 2 (the ALU's
internal operand registers). -/
def Obligations.AluLatchesItsSources : Prop :=
  (∀ mk ∈ ([.adcReg, .addReg, .sbcReg, .subReg, .andReg, .orReg, .xorReg] : List (Dest → Reg → Reg → Instr)),
    ∀ gd x y (s t : State), exec (mk gd x y) s = .next t →
      aluRead s x = .next t.aluOp1 ∧ aluRead s y = .next t.aluOp2) ∧
  (∀ mk ∈ ([.adcImm, .addImm, .sbcImm, .subImm, .andImm, .orImm, .xorImm] : List (Dest → Reg → BitVec 3 → Instr)),
    ∀ gd x i (s t : State), exec (mk gd x i) s = .next t →
      aluRead s x = .next t.aluOp1 ∧ t.aluOp2 = i.setWidth 8) ∧
  (∀ mk ∈ ([.not, .ror, .shr, .rcr] : List (Dest → Reg → Instr)),
    ∀ gd g (s t : State), exec (mk gd g) s = .next t → aluRead s g = .next t.aluOp1 ∧ t.aluOp2 = s.aluOp2)

/-- For every two source registers other than PC and every state, SUB F, Op1, Op2 answers a state with no register written in which
condition Z holds exactly when the operands are equal, C exactly when Op1 < Op2 unsigned, NC exactly when Op1 >= Op2. Rests on
44_alu_binary.md section 3 (CMP), 42_call_jump.md the condition field. -/
def Obligations.CmpComparesUnsigned : Prop :=
  ∀ (x y : Reg) (s : State), x ≠ .pc → y ≠ .pc → ∃ t, exec (.subReg .f x y) s = .next t ∧ KeepsRegs [] s t ∧
    (condHolds .z t.flags = true ↔ s.getReg x = s.getReg y) ∧
    (condHolds .c t.flags = true ↔ (s.getReg x).toNat < (s.getReg y).toNat) ∧
    (condHolds .nc t.flags = true ↔ (s.getReg y).toNat ≤ (s.getReg x).toNat)

/-- For every register other than PC and every state: ADD G, G, G leaves G shifted left by one and CY the old bit 7; ADC G, G, G
leaves G shifted left with the old CY at bit 0 and CY the old bit 7. Rests on 44_alu_binary.md section 4 (idioms),
95_test_vectors.md section 1 (EX7). -/
def Obligations.AddToItselfShiftsLeft : Prop :=
  ∀ (g : Reg) (s : State), g ≠ .pc →
    (∃ t, exec (.addReg (.g g) g g) s = .next t ∧ t.getReg g = s.getReg g <<< 1 ∧ t.flags.cy = (s.getReg g).getLsbD 7) ∧
    (∃ t, exec (.adcReg (.g g) g g) s = .next t ∧
      t.getReg g = (s.getReg g <<< 1 ||| if s.flags.cy then 1 else 0) ∧ t.flags.cy = (s.getReg g).getLsbD 7)

/-- For every instruction that is not one of the eleven ALU operations and every state, if exec answers t then the flags of t are
those before. Spec decision D20 (log 15). Rests on 10_state.md section 3, 10_state.md section 7. -/
def Obligations.OnlyAluWritesFlags : Prop :=
  ∀ (i : Instr) (s t : State), isAlu i = false → exec i s = .next t → t.flags = s.flags

/-- For every instruction, state and register r that is neither PC nor one the instruction may write (its destination; L for CALL;
none for F, STORE, NOP, HALT), if exec answers t then r is unchanged. Rests on 10_state.md section 7, 10_state.md section 1. -/
def Obligations.OnlyNamedRegistersAreWritten : Prop :=
  ∀ (i : Instr) (s t : State) (r : Reg), exec i s = .next t → r ≠ .pc → r ∉ writes i → t.getReg r = s.getReg r

/-- For every instruction other than the two forms of STORE and every state, if exec answers t then both memories are those before.
Rests on 20_memory.md section 2 (MemWrite), 10_state.md section 7. -/
def Obligations.OnlyStoresWriteMemory : Prop :=
  ∀ (i : Instr) (s t : State), isStore i = false → exec i s = .next t → t.pmem = s.pmem ∧ t.dmem = s.dmem

/-- For every instruction other than HALT whose destination is not PC and that is neither JMP nor CALL, and every state, if exec
answers t then PC = pc + 1; and hidden INC holds pc + 1 after every instruction but HALT. Rests on 10_state.md section 2 (how each
instruction advances PC), 42_call_jump.md all the ways control is transferred. -/
def Obligations.PcAdvancesUnlessWritten : Prop :=
  ∀ (i : Instr) (s t : State), i ≠ .halt → exec i s = .next t →
    (.pc ∉ writes i → t.pc = s.pc + 1) ∧ t.inc = s.pc + 1

/-- For every instruction and state, if exec answers t: t is halted when the instruction is HALT, and otherwise the clock is as it
was. Rests on 10_state.md section 5 (the run bit), 40_halt_nop.md HALT, 60_exceptions.md section 5 (power and wait states). -/
def Obligations.OnlyHaltStopsTheClock : Prop :=
  ∀ (i : Instr) (s t : State), exec i s = .next t → t.halted = if i = .halt then true else s.halted

/-- For every instruction and state, if exec answers t then the draw counter is unchanged, unless the instruction is one of the two
the source calls undefined, and then it is one more. The counter is the model's own (log 26); nothing rests on its value. Rests on
93_implementation_defined.md section 1, 30_encoding.md section 3 (combinations the source calls undefined). -/
def Obligations.FreeDrawsOnlyForUndefinedResults : Prop :=
  ∀ (i : Instr) (s t : State), exec i s = .next t →
    ((∃ g, i = .mov g g) ∨ (∃ p : Ptr, i = .load p.reg p) → t.draws = s.draws + 1) ∧
    (¬ ((∃ g, i = .mov g g) ∨ (∃ p : Ptr, i = .load p.reg p)) → t.draws = s.draws)
end

