-- ==== Sys2Proof/Laws/Encoding.lean ====
section
/-! SUPPORT. The fields of an encoded word: what bits a concatenation holds, and that the code tables are inverse to each other. -/

namespace Sys2Proof

/-! ### The code tables -/

@[simp] theorem Reg.ofCode_code (r : Reg) : Reg.ofCode r.code = r := by cases r <;> rfl

@[simp] theorem Ptr.ofCode_code (p : Ptr) : Ptr.ofCode p.reg.code = some p := by cases p <;> rfl

@[simp] theorem Cond.ofCode_code (cond : Cond) : Cond.ofCode cond.code = some cond := by cases cond <;> rfl

theorem Reg.code_ofCode (x : BitVec 3) : (Reg.ofCode x).code = x := by revert x; decide

theorem Cond.code_of_ofCode : ∀ (x : BitVec 3) (cond : Cond), Cond.ofCode x = some cond → cond.code = x := by decide +revert

theorem Ptr.code_of_ofCode : ∀ (x : BitVec 3) (p : Ptr), Ptr.ofCode x = some p → p.reg.code = x := by decide +revert

/-! ### A word whose low byte is an 8-bit immediate -/

theorem field_low (hi imm : Byte) : field (hi ++ imm) 0 8 = imm := by
  unfold field; ext i h
  simp only [BitVec.getElem_extractLsb', Nat.zero_add]
  exact (BitVec.getLsbD_append (x := hi) (y := imm)).trans (by simp [h])

/-- A field above the immediate is a field of the high byte. -/
theorem field_high (hi imm : Byte) (k len : Nat) : field (hi ++ imm) (8 + k) len = hi.extractLsb' k len := by
  unfold field; ext i h
  simp only [BitVec.getElem_extractLsb']
  exact (BitVec.getLsbD_append (x := hi) (y := imm)).trans (by
    rw [if_neg (by omega)]; congr 1; omega)

/-- A mask that covers high bits only does not see the immediate. -/
theorem and_high (hi imm m : Byte) : ((hi ++ imm : BitVec (8 + 8)) : Word) &&& (m ++ 0#8 : BitVec (8 + 8)) = (hi &&& m) ++ 0#8 := by
  apply BitVec.eq_of_getLsbD_eq
  intro i _
  simp only [BitVec.getLsbD_and]
  show (BitVec.getLsbD (w := 8 + 8) (hi ++ imm) i && BitVec.getLsbD (w := 8 + 8) (m ++ 0#8) i)
    = BitVec.getLsbD (w := 8 + 8) ((hi &&& m) ++ 0#8) i
  simp only [BitVec.getLsbD_append]
  split <;> simp

/-- A field of a word depends only on the bits a mask that covers it keeps. -/
theorem field_of_and {w m v : Word} (lo len : Nat) (h : w &&& m = v)
    (hm : ∀ i < len, m.getLsbD (lo + i) = true) : field w lo len = field v lo len := by
  subst h
  unfold field; ext i hi
  simp [BitVec.getElem_extractLsb', hm i hi]

end Sys2Proof
end

