-- ==== Sys2Proof/Laws/State.lean ====
section
/-! SUPPORT. The small lemmas of the state's updates: one per field per update. -/

namespace Sys2Proof.Machine

/-! ### Registers -/

@[simp] theorem State.getReg_setReg_same (s : State) (r : Reg) (v : Byte) : (s.setReg r v).getReg r = v := by
  cases r <;> rfl

theorem State.getReg_setReg_other (s : State) {r r' : Reg} (v : Byte) (h : r' ≠ r) :
    (s.setReg r v).getReg r' = s.getReg r' := by
  cases r <;> cases r' <;> first | rfl | exact absurd rfl h

theorem State.setReg_pc_other (s : State) {r : Reg} (v : Byte) (h : r ≠ .pc) : (s.setReg r v).pc = s.pc := by
  cases r <;> first | rfl | exact absurd rfl h

@[simp] theorem State.getReg_pc (s : State) : s.getReg .pc = s.pc := rfl

@[simp] theorem State.setReg_pc (s : State) (v : Byte) : (s.setReg .pc v).pc = v := rfl

@[simp] theorem State.setReg_flags (s : State) (r : Reg) (v : Byte) : (s.setReg r v).flags = s.flags := by cases r <;> rfl

@[simp] theorem State.setReg_inc (s : State) (r : Reg) (v : Byte) : (s.setReg r v).inc = s.inc := by cases r <;> rfl

@[simp] theorem State.setReg_aluOp1 (s : State) (r : Reg) (v : Byte) : (s.setReg r v).aluOp1 = s.aluOp1 := by cases r <;> rfl

@[simp] theorem State.setReg_aluOp2 (s : State) (r : Reg) (v : Byte) : (s.setReg r v).aluOp2 = s.aluOp2 := by cases r <;> rfl

@[simp] theorem State.setReg_halted (s : State) (r : Reg) (v : Byte) : (s.setReg r v).halted = s.halted := by cases r <;> rfl

@[simp] theorem State.setReg_pmem (s : State) (r : Reg) (v : Byte) : (s.setReg r v).pmem = s.pmem := by cases r <;> rfl

@[simp] theorem State.setReg_dmem (s : State) (r : Reg) (v : Byte) : (s.setReg r v).dmem = s.dmem := by cases r <;> rfl

@[simp] theorem State.setReg_cfg (s : State) (r : Reg) (v : Byte) : (s.setReg r v).cfg = s.cfg := by cases r <;> rfl

@[simp] theorem State.setReg_draws (s : State) (r : Reg) (v : Byte) : (s.setReg r v).draws = s.draws := by cases r <;> rfl

/-! ### The first two phases -/

@[simp] theorem State.advance_pc (s : State) : s.advance.pc = s.pc + 1 := rfl
@[simp] theorem State.advance_inc (s : State) : s.advance.inc = s.pc + 1 := rfl
@[simp] theorem State.latchInc_inc (s : State) : s.latchInc.inc = s.pc + 1 := rfl
@[simp] theorem State.incToL_l (s : State) : s.incToL.l = s.inc := rfl

theorem State.getReg_advance_other (s : State) {r : Reg} (h : r ≠ .pc) : s.advance.getReg r = s.getReg r := by
  cases r <;> first | rfl | exact absurd rfl h
@[simp] theorem State.advance_flags (s : State) : s.advance.flags = s.flags := rfl
@[simp] theorem State.advance_aluOp1 (s : State) : s.advance.aluOp1 = s.aluOp1 := rfl
@[simp] theorem State.advance_aluOp2 (s : State) : s.advance.aluOp2 = s.aluOp2 := rfl
@[simp] theorem State.advance_halted (s : State) : s.advance.halted = s.halted := rfl
@[simp] theorem State.advance_pmem (s : State) : s.advance.pmem = s.pmem := rfl
@[simp] theorem State.advance_dmem (s : State) : s.advance.dmem = s.dmem := rfl
@[simp] theorem State.advance_cfg (s : State) : s.advance.cfg = s.cfg := rfl
@[simp] theorem State.advance_draws (s : State) : s.advance.draws = s.draws := rfl
@[simp] theorem State.latchInc_pc (s : State) : s.latchInc.pc = s.pc := rfl
@[simp] theorem State.latchInc_l (s : State) : s.latchInc.l = s.l := rfl
@[simp] theorem State.latchInc_flags (s : State) : s.latchInc.flags = s.flags := rfl
@[simp] theorem State.latchInc_aluOp1 (s : State) : s.latchInc.aluOp1 = s.aluOp1 := rfl
@[simp] theorem State.latchInc_aluOp2 (s : State) : s.latchInc.aluOp2 = s.aluOp2 := rfl
@[simp] theorem State.latchInc_halted (s : State) : s.latchInc.halted = s.halted := rfl
@[simp] theorem State.latchInc_pmem (s : State) : s.latchInc.pmem = s.pmem := rfl
@[simp] theorem State.latchInc_dmem (s : State) : s.latchInc.dmem = s.dmem := rfl
@[simp] theorem State.latchInc_cfg (s : State) : s.latchInc.cfg = s.cfg := rfl
@[simp] theorem State.latchInc_draws (s : State) : s.latchInc.draws = s.draws := rfl
@[simp] theorem State.incToL_pc (s : State) : s.incToL.pc = s.pc := rfl
@[simp] theorem State.incToL_flags (s : State) : s.incToL.flags = s.flags := rfl
@[simp] theorem State.incToL_inc (s : State) : s.incToL.inc = s.inc := rfl
@[simp] theorem State.incToL_aluOp1 (s : State) : s.incToL.aluOp1 = s.aluOp1 := rfl
@[simp] theorem State.incToL_aluOp2 (s : State) : s.incToL.aluOp2 = s.aluOp2 := rfl
@[simp] theorem State.incToL_halted (s : State) : s.incToL.halted = s.halted := rfl
@[simp] theorem State.incToL_pmem (s : State) : s.incToL.pmem = s.pmem := rfl
@[simp] theorem State.incToL_dmem (s : State) : s.incToL.dmem = s.dmem := rfl
@[simp] theorem State.incToL_cfg (s : State) : s.incToL.cfg = s.cfg := rfl
@[simp] theorem State.incToL_draws (s : State) : s.incToL.draws = s.draws := rfl

/-! ### The ALU's phases -/

@[simp] theorem State.latchOperands_pc (s : State) (v1 v2 : Byte) : (s.latchOperands v1 v2).pc = s.pc := rfl
@[simp] theorem State.latchOperands_flags (s : State) (v1 v2 : Byte) : (s.latchOperands v1 v2).flags = s.flags := rfl
@[simp] theorem State.latchOperands_inc (s : State) (v1 v2 : Byte) : (s.latchOperands v1 v2).inc = s.inc := rfl
@[simp] theorem State.latchOperands_halted (s : State) (v1 v2 : Byte) : (s.latchOperands v1 v2).halted = s.halted := rfl
@[simp] theorem State.latchOperands_pmem (s : State) (v1 v2 : Byte) : (s.latchOperands v1 v2).pmem = s.pmem := rfl
@[simp] theorem State.latchOperands_dmem (s : State) (v1 v2 : Byte) : (s.latchOperands v1 v2).dmem = s.dmem := rfl
@[simp] theorem State.latchOperands_cfg (s : State) (v1 v2 : Byte) : (s.latchOperands v1 v2).cfg = s.cfg := rfl
@[simp] theorem State.latchOperands_draws (s : State) (v1 v2 : Byte) : (s.latchOperands v1 v2).draws = s.draws := rfl
@[simp] theorem State.latchOperands_aluOp1 (s : State) (v1 v2 : Byte) : (s.latchOperands v1 v2).aluOp1 = v1 := rfl
@[simp] theorem State.latchOperands_aluOp2 (s : State) (v1 v2 : Byte) : (s.latchOperands v1 v2).aluOp2 = v2 := rfl
@[simp] theorem State.getReg_latchOperands (s : State) (v1 v2 : Byte) (r : Reg) :
    (s.latchOperands v1 v2).getReg r = s.getReg r := by cases r <;> rfl
@[simp] theorem State.latchOperand_pc (s : State) (v : Byte) : (s.latchOperand v).pc = s.pc := rfl
@[simp] theorem State.latchOperand_flags (s : State) (v : Byte) : (s.latchOperand v).flags = s.flags := rfl
@[simp] theorem State.latchOperand_inc (s : State) (v : Byte) : (s.latchOperand v).inc = s.inc := rfl
@[simp] theorem State.latchOperand_aluOp2 (s : State) (v : Byte) : (s.latchOperand v).aluOp2 = s.aluOp2 := rfl
@[simp] theorem State.latchOperand_halted (s : State) (v : Byte) : (s.latchOperand v).halted = s.halted := rfl
@[simp] theorem State.latchOperand_pmem (s : State) (v : Byte) : (s.latchOperand v).pmem = s.pmem := rfl
@[simp] theorem State.latchOperand_dmem (s : State) (v : Byte) : (s.latchOperand v).dmem = s.dmem := rfl
@[simp] theorem State.latchOperand_cfg (s : State) (v : Byte) : (s.latchOperand v).cfg = s.cfg := rfl
@[simp] theorem State.latchOperand_draws (s : State) (v : Byte) : (s.latchOperand v).draws = s.draws := rfl
@[simp] theorem State.latchOperand_aluOp1 (s : State) (v : Byte) : (s.latchOperand v).aluOp1 = v := rfl
@[simp] theorem State.getReg_latchOperand (s : State) (v : Byte) (r : Reg) :
    (s.latchOperand v).getReg r = s.getReg r := by cases r <;> rfl

@[simp] theorem State.writeDest_flags (s : State) (gd : Dest) (v : Byte) : (s.writeDest gd v).flags = s.flags := by
  cases gd <;> simp [State.writeDest]
@[simp] theorem State.writeDest_inc (s : State) (gd : Dest) (v : Byte) : (s.writeDest gd v).inc = s.inc := by
  cases gd <;> simp [State.writeDest]
@[simp] theorem State.writeDest_aluOp1 (s : State) (gd : Dest) (v : Byte) : (s.writeDest gd v).aluOp1 = s.aluOp1 := by
  cases gd <;> simp [State.writeDest]
@[simp] theorem State.writeDest_aluOp2 (s : State) (gd : Dest) (v : Byte) : (s.writeDest gd v).aluOp2 = s.aluOp2 := by
  cases gd <;> simp [State.writeDest]
@[simp] theorem State.writeDest_halted (s : State) (gd : Dest) (v : Byte) : (s.writeDest gd v).halted = s.halted := by
  cases gd <;> simp [State.writeDest]
@[simp] theorem State.writeDest_pmem (s : State) (gd : Dest) (v : Byte) : (s.writeDest gd v).pmem = s.pmem := by
  cases gd <;> simp [State.writeDest]
@[simp] theorem State.writeDest_dmem (s : State) (gd : Dest) (v : Byte) : (s.writeDest gd v).dmem = s.dmem := by
  cases gd <;> simp [State.writeDest]
@[simp] theorem State.writeDest_cfg (s : State) (gd : Dest) (v : Byte) : (s.writeDest gd v).cfg = s.cfg := by
  cases gd <;> simp [State.writeDest]
@[simp] theorem State.writeDest_draws (s : State) (gd : Dest) (v : Byte) : (s.writeDest gd v).draws = s.draws := by
  cases gd <;> simp [State.writeDest]
@[simp] theorem State.writeDest_f (s : State) (v : Byte) : s.writeDest .f v = s := rfl
@[simp] theorem State.writeDest_g (s : State) (r : Reg) (v : Byte) : s.writeDest (.g r) v = s.setReg r v := rfl

@[simp] theorem State.finishAlu_flags (s : State) (gd : Dest) (r : AluOut) : (s.finishAlu gd r).flags = r.flags := by
  simp [State.finishAlu]
@[simp] theorem State.finishAlu_inc (s : State) (gd : Dest) (r : AluOut) : (s.finishAlu gd r).inc = s.inc := by
  simp [State.finishAlu]
@[simp] theorem State.finishAlu_aluOp1 (s : State) (gd : Dest) (r : AluOut) : (s.finishAlu gd r).aluOp1 = s.aluOp1 := by
  simp [State.finishAlu]
@[simp] theorem State.finishAlu_aluOp2 (s : State) (gd : Dest) (r : AluOut) : (s.finishAlu gd r).aluOp2 = s.aluOp2 := by
  simp [State.finishAlu]
@[simp] theorem State.finishAlu_halted (s : State) (gd : Dest) (r : AluOut) : (s.finishAlu gd r).halted = s.halted := by
  simp [State.finishAlu]
@[simp] theorem State.finishAlu_pmem (s : State) (gd : Dest) (r : AluOut) : (s.finishAlu gd r).pmem = s.pmem := by
  simp [State.finishAlu]
@[simp] theorem State.finishAlu_dmem (s : State) (gd : Dest) (r : AluOut) : (s.finishAlu gd r).dmem = s.dmem := by
  simp [State.finishAlu]
@[simp] theorem State.finishAlu_cfg (s : State) (gd : Dest) (r : AluOut) : (s.finishAlu gd r).cfg = s.cfg := by
  simp [State.finishAlu]
@[simp] theorem State.finishAlu_draws (s : State) (gd : Dest) (r : AluOut) : (s.finishAlu gd r).draws = s.draws := by
  simp [State.finishAlu]

/-! ### Free draws -/

@[simp] theorem State.drawInto_draws (s : State) (r : Reg) : (s.drawInto r).draws = s.draws + 1 := by simp [State.drawInto]
@[simp] theorem State.getReg_drawInto_same (s : State) (r : Reg) : (s.drawInto r).getReg r = Config.freeByte s.draws := by
  simp [State.drawInto]

theorem State.getReg_drawInto_other (s : State) {r r' : Reg} (h : r' ≠ r) : (s.drawInto r).getReg r' = s.getReg r' := by
  rw [State.drawInto, State.getReg_setReg_other _ _ h]; cases r' <;> rfl

@[simp] theorem State.drawInto_flags (s : State) (r : Reg) : (s.drawInto r).flags = s.flags := by simp [State.drawInto]
@[simp] theorem State.drawInto_inc (s : State) (r : Reg) : (s.drawInto r).inc = s.inc := by simp [State.drawInto]
@[simp] theorem State.drawInto_aluOp1 (s : State) (r : Reg) : (s.drawInto r).aluOp1 = s.aluOp1 := by simp [State.drawInto]
@[simp] theorem State.drawInto_aluOp2 (s : State) (r : Reg) : (s.drawInto r).aluOp2 = s.aluOp2 := by simp [State.drawInto]
@[simp] theorem State.drawInto_halted (s : State) (r : Reg) : (s.drawInto r).halted = s.halted := by simp [State.drawInto]
@[simp] theorem State.drawInto_pmem (s : State) (r : Reg) : (s.drawInto r).pmem = s.pmem := by simp [State.drawInto]
@[simp] theorem State.drawInto_dmem (s : State) (r : Reg) : (s.drawInto r).dmem = s.dmem := by simp [State.drawInto]
@[simp] theorem State.drawInto_cfg (s : State) (r : Reg) : (s.drawInto r).cfg = s.cfg := by simp [State.drawInto]

/-! ### Memory updates -/

@[simp] theorem State.setCell_pc (s : State) (a v : Byte) : (s.setCell a v).pc = s.pc := rfl
@[simp] theorem State.setCell_flags (s : State) (a v : Byte) : (s.setCell a v).flags = s.flags := rfl
@[simp] theorem State.setCell_inc (s : State) (a v : Byte) : (s.setCell a v).inc = s.inc := rfl
@[simp] theorem State.setCell_aluOp1 (s : State) (a v : Byte) : (s.setCell a v).aluOp1 = s.aluOp1 := rfl
@[simp] theorem State.setCell_aluOp2 (s : State) (a v : Byte) : (s.setCell a v).aluOp2 = s.aluOp2 := rfl
@[simp] theorem State.setCell_halted (s : State) (a v : Byte) : (s.setCell a v).halted = s.halted := rfl
@[simp] theorem State.setCell_pmem (s : State) (a v : Byte) : (s.setCell a v).pmem = s.pmem := rfl
@[simp] theorem State.setCell_cfg (s : State) (a v : Byte) : (s.setCell a v).cfg = s.cfg := rfl
@[simp] theorem State.setCell_draws (s : State) (a v : Byte) : (s.setCell a v).draws = s.draws := rfl
@[simp] theorem State.getReg_setCell (s : State) (a v : Byte) (r : Reg) : (s.setCell a v).getReg r = s.getReg r := by cases r <;> rfl
@[simp] theorem State.setWord_pc (s : State) (a : Byte) (w : Word) : (s.setWord a w).pc = s.pc := rfl
@[simp] theorem State.setWord_flags (s : State) (a : Byte) (w : Word) : (s.setWord a w).flags = s.flags := rfl
@[simp] theorem State.setWord_inc (s : State) (a : Byte) (w : Word) : (s.setWord a w).inc = s.inc := rfl
@[simp] theorem State.setWord_aluOp1 (s : State) (a : Byte) (w : Word) : (s.setWord a w).aluOp1 = s.aluOp1 := rfl
@[simp] theorem State.setWord_aluOp2 (s : State) (a : Byte) (w : Word) : (s.setWord a w).aluOp2 = s.aluOp2 := rfl
@[simp] theorem State.setWord_halted (s : State) (a : Byte) (w : Word) : (s.setWord a w).halted = s.halted := rfl
@[simp] theorem State.setWord_dmem (s : State) (a : Byte) (w : Word) : (s.setWord a w).dmem = s.dmem := rfl
@[simp] theorem State.setWord_cfg (s : State) (a : Byte) (w : Word) : (s.setWord a w).cfg = s.cfg := rfl
@[simp] theorem State.setWord_draws (s : State) (a : Byte) (w : Word) : (s.setWord a w).draws = s.draws := rfl
@[simp] theorem State.getReg_setWord (s : State) (a : Byte) (w : Word) (r : Reg) : (s.setWord a w).getReg r = s.getReg r := by cases r <;> rfl
@[simp] theorem State.setCell_dmem (s : State) (a v : Byte) : (s.setCell a v).dmem = Memory.put s.dmem a.toNat v := rfl
@[simp] theorem State.setWord_pmem (s : State) (a : Byte) (w : Word) : (s.setWord a w).pmem = Memory.put s.pmem a.toNat w := rfl

/-! ### Reads that do not depend on registers -/

theorem State.region_congr {s t : State} (h : t.cfg = s.cfg) (a : Byte) : t.region a = s.region a := by
  simp [State.region, h]

theorem State.dataCell_congr {s t : State} (h : t.dmem = s.dmem) (a : Byte) : t.dataCell a = s.dataCell a := by
  simp [State.dataCell, h]

theorem State.progWord_congr {s t : State} (h : t.pmem = s.pmem) (a : Byte) : t.progWord a = s.progWord a := by
  simp [State.progWord, h]

end Sys2Proof.Machine
end

