-- ==== Sys2Proof/Laws/Memory.lean ====
section
/-! SUPPORT. The laws of a memory: a read after a write, and that every memory operation keeps the canonical form. -/

namespace Sys2Proof.Machine

/-- A read after a write to the same address gives the value written. -/
@[simp] theorem Memory.find_put_same {w : Nat} (m : Memory w) (a : Nat) (v : BitVec w) :
    Memory.find (Memory.put m a v) a = some v := by
  induction m with
  | nil => simp [Memory.put, Memory.find]
  | cons e rest ih =>
    obtain ⟨k, x⟩ := e
    by_cases h1 : a < k
    · simp [Memory.put, Memory.find, h1]
    · by_cases h2 : k = a
      · simp [Memory.put, Memory.find, h2]
      · simp [Memory.put, Memory.find, h1, h2, ih]

/-- A write leaves every other address alone. -/
theorem Memory.find_put_other {w : Nat} (m : Memory w) {a b : Nat} (v : BitVec w) (h : b ≠ a) :
    Memory.find (Memory.put m a v) b = Memory.find m b := by
  induction m with
  | nil => simp [Memory.put, Memory.find, h.symm]
  | cons e rest ih =>
    obtain ⟨k, x⟩ := e
    by_cases h1 : a < k
    · simp [Memory.put, Memory.find, h1, h.symm]
    · by_cases h2 : k = a
      · subst h2; simp [Memory.put, Memory.find, h.symm]
      · simp [Memory.put, Memory.find, h1, h2, ih]

theorem Memory.sortedFrom_put {w : Nat} (m : Memory w) {lo a : Nat} (v : BitVec w) (hlo : lo ≤ a) (ha : a < 256)
    (h : Memory.sortedFrom lo m = true) : Memory.sortedFrom lo (Memory.put m a v) = true := by
  induction m generalizing lo with
  | nil => simp [Memory.put, Memory.sortedFrom, hlo, ha]
  | cons e rest ih =>
    obtain ⟨k, x⟩ := e
    simp only [Memory.sortedFrom, Bool.and_eq_true, decide_eq_true_eq] at h
    obtain ⟨⟨h1, h2⟩, h3⟩ := h
    simp only [Memory.put]
    split
    · simp only [Memory.sortedFrom, Bool.and_eq_true, decide_eq_true_eq]
      exact ⟨⟨hlo, ha⟩, ⟨by omega, h2⟩, h3⟩
    · split
      · subst k
        simp only [Memory.sortedFrom, Bool.and_eq_true, decide_eq_true_eq]
        exact ⟨⟨hlo, ha⟩, h3⟩
      · simp only [Memory.sortedFrom, Bool.and_eq_true, decide_eq_true_eq]
        exact ⟨⟨h1, h2⟩, ih (by omega) h3⟩

/-- A write at an 8-bit address keeps the canonical form. -/
theorem Memory.wf_put {w : Nat} {m : Memory w} (a : Byte) (v : BitVec w) (h : Memory.wf m = true) :
    Memory.wf (Memory.put m a.toNat v) = true :=
  Memory.sortedFrom_put m v (Nat.zero_le _) a.isLt h

/-- Reset's memories have the canonical form. -/
theorem State.reset_memories_wf : Memory.wf State.reset.pmem = true ∧ Memory.wf State.reset.dmem = true := ⟨rfl, rfl⟩

@[simp] theorem State.dataCell_setCell_same (s : State) (a v : Byte) : (s.setCell a v).dataCell a = v := by
  simp [State.dataCell]

theorem State.dataCell_setCell_other (s : State) {a b : Byte} (v : Byte) (h : b ≠ a) :
    (s.setCell a v).dataCell b = s.dataCell b := by
  simp [State.dataCell, Memory.find_put_other s.dmem v (mt BitVec.eq_of_toNat_eq h)]

@[simp] theorem State.progWord_setWord_same (s : State) (a : Byte) (w : Word) : (s.setWord a w).progWord a = w := by
  simp [State.progWord]

theorem State.progWord_setWord_other (s : State) {a b : Byte} (w : Word) (h : b ≠ a) :
    (s.setWord a w).progWord b = s.progWord b := by
  simp [State.progWord, Memory.find_put_other s.pmem w (mt BitVec.eq_of_toNat_eq h)]

@[simp] theorem State.progWord_setCell (s : State) (a v b : Byte) : (s.setCell a v).progWord b = s.progWord b := rfl

@[simp] theorem State.dataCell_setWord (s : State) (a : Byte) (w : Word) (b : Byte) :
    (s.setWord a w).dataCell b = s.dataCell b := rfl

/-- The two halves of a word. -/
@[simp] theorem highByte_append (h v : Byte) : highByte (h ++ v) = h := by
  unfold highByte; ext i hi
  simp only [BitVec.getElem_extractLsb']
  exact (BitVec.getLsbD_append (x := h) (y := v)).trans (by simp [hi])

@[simp] theorem lowByte_append (h v : Byte) : lowByte (h ++ v) = v := by
  unfold lowByte; ext i hi
  simp only [BitVec.getElem_extractLsb', Nat.zero_add]
  exact (BitVec.getLsbD_append (x := h) (y := v)).trans (by simp [hi])

end Sys2Proof.Machine
end

