-- ==== Sys2Proof/Laws/Ops.lean ====
section
/-! SUPPORT. For each shared operation, everything it can do when it answers a next value. -/

namespace Sys2Proof.Machine

/-- A sequence answers a next value exactly when both of its parts do. -/
theorem andThen_eq_next {α β : Type} {x : Result α} {k : α → Result β} {v : β} :
    andThen x k = .next v ↔ ∃ u, x = .next u ∧ k u = .next v := by
  cases x <;> simp [andThen]

@[simp] theorem andThen_next {α β : Type} (u : α) (k : α → Result β) : andThen (.next u) k = k u := rfl

/-- A fetch answers the program word at PC, and only where PC is a `prog` address. -/
theorem fetch_eq_next {s : State} {w : Word} : fetch s = .next w ↔ s.region s.pc = .prog ∧ s.progWord s.pc = w := by
  unfold fetch; cases s.region s.pc <;> simp

/-- A data read answers the cell of a `data` address, or the low byte of the word of a `prog` address. -/
theorem memRead_eq_next {s : State} {a v : Byte} :
    memRead s a = .next v ↔
      s.region a = .data ∧ s.dataCell a = v ∨ s.region a = .prog ∧ lowByte (s.progWord a) = v := by
  unfold memRead; cases s.region a <;> simp

/-- A data write writes the cell, or the low byte of the word where `STORE_TO_PROG` lets it. -/
theorem memWrite_eq_next {s t : State} {a v : Byte} :
    memWrite s a v = .next t ↔
      s.region a = .data ∧ t = s.setCell a v ∨
      s.region a = .prog ∧ s.cfg.storeToProg = .writesLowByte ∧ t = s.setWord a (highByte (s.progWord a) ++ v) := by
  unfold memWrite
  cases s.region a <;> cases s.cfg.storeToProg <;> simp [eq_comm]

/-- An ALU source answers the register, or for PC the phase `ALU_PC_READ` names. -/
theorem aluRead_eq_next {s : State} {g : Reg} {v : Byte} :
    aluRead s g = .next v ↔
      g ≠ .pc ∧ v = s.getReg g ∨
      g = .pc ∧ (s.cfg.aluPcRead = .reads .current ∧ v = s.pc ∨ s.cfg.aluPcRead = .reads .next ∧ v = s.pc + 1) := by
  unfold aluRead
  by_cases h : g = .pc
  · subst h
    rcases hr : s.cfg.aluPcRead with _ | (_ | _) <;> simp [State.next, eq_comm]
  · simp [h, eq_comm]

@[simp] theorem aluRead_of_ne_pc {s : State} {g : Reg} (h : g ≠ .pc) : aluRead s g = .next (s.getReg g) := by
  simp [aluRead, h]

/-- LOAD's Exec phase writes what the data read answers. -/
theorem loadFrom_eq_next {s t : State} {gd : Reg} {a : Byte} :
    loadFrom s gd a = .next t ↔ ∃ v, memRead s a = .next v ∧ t = s.setReg gd v := by
  simp only [loadFrom, andThen_eq_next, Host.Outcome.next.injEq, eq_comm (a := t)]

theorem loadFree_eq_next {s t : State} {gd : Reg} {a : Byte} :
    loadFree s gd a = .next t ↔ (∃ v, memRead s a = .next v) ∧ t = s.drawInto gd := by
  simp only [loadFree, andThen_eq_next, Host.Outcome.next.injEq, eq_comm (a := t), exists_and_right]

/-- The binary ALU frame answers exactly when both sources can be read. -/
theorem aluBinary_eq_next {f : Byte → Byte → Bool → AluOut} {gd : Dest} {x : Reg} {o : Operand2} {s t : State} :
    aluBinary f gd x o s = .next t ↔
      ∃ v1 v2, aluRead s x = .next v1 ∧ aluReadOperand2 s o = .next v2 ∧
        t = (s.advance.latchOperands v1 v2).finishAlu gd (f v1 v2 s.flags.cy) := by
  simp only [aluBinary, andThen_eq_next]
  constructor
  · rintro ⟨v1, h1, v2, h2, h3⟩
    exact ⟨v1, v2, h1, h2, by simpa [eq_comm] using h3⟩
  · rintro ⟨v1, v2, h1, h2, rfl⟩
    exact ⟨v1, h1, v2, h2, by simp⟩

/-- The unary ALU frame answers exactly when its source can be read. -/
theorem aluUnary_eq_next {f : Byte → Bool → AluOut} {gd : Dest} {g : Reg} {s t : State} :
    aluUnary f gd g s = .next t ↔
      ∃ v, aluRead s g = .next v ∧ t = (s.advance.latchOperand v).finishAlu gd (f v s.flags.cy) := by
  simp only [aluUnary, andThen_eq_next]
  constructor
  · rintro ⟨v, h, h3⟩
    exact ⟨v, h, by simpa [eq_comm] using h3⟩
  · rintro ⟨v, h, rfl⟩
    exact ⟨v, h, by simp⟩

/-- A step that answers: the stopped machine as it is, or exec of the decoded instruction. -/
theorem step_eq_next {s t : State} :
    step s = .next t ↔
      s.halted = true ∧ t = s ∨
      s.halted = false ∧ s.region s.pc = .prog ∧
        ∃ i, decode s.cfg.dontCare (s.progWord s.pc) = .ok i ∧ exec i s = .next t := by
  unfold step
  cases hh : s.halted
  · simp only [Bool.false_eq_true, if_false, andThen_eq_next, fetch_eq_next, false_and, false_or, true_and]
    constructor
    · rintro ⟨w, ⟨h1, rfl⟩, h2⟩
      refine ⟨h1, ?_⟩
      unfold runWord at h2
      split at h2
      · exact ⟨_, by assumption, h2⟩
      · cases h2
    · rintro ⟨h1, i, h2, h3⟩
      exact ⟨_, ⟨h1, rfl⟩, by simp [runWord, h2, h3]⟩
  · simp [eq_comm]

/-! ### What the ALU functions compute -/

@[simp] theorem aluOut_res (res : Byte) (cy : Bool) : (aluOut res cy).res = res := rfl
@[simp] theorem aluOut_cy (res : Byte) (cy : Bool) : (aluOut res cy).flags.cy = cy := rfl
@[simp] theorem aluOut_z (res : Byte) (cy : Bool) : (aluOut res cy).flags.z = (res == 0) := rfl
@[simp] theorem aluOut_s (res : Byte) (cy : Bool) : (aluOut res cy).flags.s = res.msb := rfl

end Sys2Proof.Machine
end

