-- ==== Sys2Proof/Laws/PerInstr.lean ====
section
/-! SUPPORT. Statements per instruction: the canonical word of every instruction lies in that instruction's row of opcode_table.json. -/

namespace Sys2Proof.Laws.TableRow

/-- The canonical word (30_encoding.md R66) matches the row's match under its mask. -/
def Statement (i : Instr) : Prop := encode i &&& i.tableRow.1 = i.tableRow.2

theorem nop : Statement .nop := rfl
theorem halt : Statement .halt := rfl
theorem mov (gd gs : Reg) : Statement (.mov gd gs) := by cases gd <;> cases gs <;> rfl
theorem loadImm (gd : Reg) (imm : Byte) : Statement (.loadImm gd imm) := by
  cases gd <;> exact (and_high _ imm 0xF8).trans rfl
theorem load (gd : Reg) (p : Ptr) : Statement (.load gd p) := by cases gd <;> cases p <;> rfl
theorem storeImm (gs : Reg) (imm : Byte) : Statement (.storeImm gs imm) := by
  cases gs <;> exact (and_high _ imm 0xF8).trans rfl
theorem store (gs : Reg) (p : Ptr) : Statement (.store gs p) := by cases gs <;> cases p <;> rfl

/-- The mask of a binary ALU row keeps the group, the operation and i, and drops d, x, r and y. -/
theorem binary_row (b d : BitVec 3) (i : BitVec 1) (x : BitVec 3) (r : BitVec 1) (y : BitVec 3) :
    ((0b01#2 ++ b ++ d ++ i ++ x ++ r ++ y : BitVec (2 + 3 + 3 + 1 + 3 + 1 + 3)) : Word) &&& 0xF880#16
      = (0b01#2 ++ b ++ 0#3 ++ i ++ 0#7 : BitVec (2 + 3 + 3 + 1 + 7)) := by
  apply BitVec.eq_of_getLsbD_eq
  intro n hn
  simp only [BitVec.getLsbD_and]
  show (BitVec.getLsbD (w := 2 + 3 + 3 + 1 + 3 + 1 + 3) (0b01#2 ++ b ++ d ++ i ++ x ++ r ++ y) n && _)
    = BitVec.getLsbD (w := 2 + 3 + 3 + 1 + 7) (0b01#2 ++ b ++ 0#3 ++ i ++ 0#7) n
  simp only [BitVec.getLsbD_append]
  interval_cases n <;> simp

theorem adcReg (gd : Dest) (x y : Reg) : Statement (.adcReg gd x y) := (binary_row _ _ _ _ _ _).trans rfl
theorem adcImm (gd : Dest) (x : Reg) (imm : BitVec 3) : Statement (.adcImm gd x imm) := (binary_row _ _ _ _ _ _).trans rfl
theorem addReg (gd : Dest) (x y : Reg) : Statement (.addReg gd x y) := (binary_row _ _ _ _ _ _).trans rfl
theorem addImm (gd : Dest) (x : Reg) (imm : BitVec 3) : Statement (.addImm gd x imm) := (binary_row _ _ _ _ _ _).trans rfl
theorem sbcReg (gd : Dest) (x y : Reg) : Statement (.sbcReg gd x y) := (binary_row _ _ _ _ _ _).trans rfl
theorem sbcImm (gd : Dest) (x : Reg) (imm : BitVec 3) : Statement (.sbcImm gd x imm) := (binary_row _ _ _ _ _ _).trans rfl
theorem subReg (gd : Dest) (x y : Reg) : Statement (.subReg gd x y) := (binary_row _ _ _ _ _ _).trans rfl
theorem subImm (gd : Dest) (x : Reg) (imm : BitVec 3) : Statement (.subImm gd x imm) := (binary_row _ _ _ _ _ _).trans rfl
theorem andReg (gd : Dest) (x y : Reg) : Statement (.andReg gd x y) := (binary_row _ _ _ _ _ _).trans rfl
theorem andImm (gd : Dest) (x : Reg) (imm : BitVec 3) : Statement (.andImm gd x imm) := (binary_row _ _ _ _ _ _).trans rfl
theorem orReg (gd : Dest) (x y : Reg) : Statement (.orReg gd x y) := (binary_row _ _ _ _ _ _).trans rfl
theorem orImm (gd : Dest) (x : Reg) (imm : BitVec 3) : Statement (.orImm gd x imm) := (binary_row _ _ _ _ _ _).trans rfl
theorem xorReg (gd : Dest) (x y : Reg) : Statement (.xorReg gd x y) := (binary_row _ _ _ _ _ _).trans rfl
theorem xorImm (gd : Dest) (x : Reg) (imm : BitVec 3) : Statement (.xorImm gd x imm) := (binary_row _ _ _ _ _ _).trans rfl
theorem not (gd : Dest) (gs : Reg) : Statement (.not gd gs) := by
  rcases gd with _ | r <;> (try cases r) <;> cases gs <;> rfl
theorem ror (gd : Dest) (gs : Reg) : Statement (.ror gd gs) := by
  rcases gd with _ | r <;> (try cases r) <;> cases gs <;> rfl
theorem shr (gd : Dest) (gs : Reg) : Statement (.shr gd gs) := by
  rcases gd with _ | r <;> (try cases r) <;> cases gs <;> rfl
theorem rcr (gd : Dest) (gs : Reg) : Statement (.rcr gd gs) := by
  rcases gd with _ | r <;> (try cases r) <;> cases gs <;> rfl
theorem movi (cond : Cond) (gd : Reg) (imm : Byte) : Statement (.movi cond gd imm) := by
  cases cond <;> cases gd <;> exact (and_high _ imm 0x88).trans rfl
theorem jmp (cond : Cond) (imm : Byte) : Statement (.jmp cond imm) := by
  cases cond <;> exact (and_high _ imm 0x8F).trans rfl
theorem call (cond : Cond) (imm : Byte) : Statement (.call cond imm) := by
  cases cond <;> exact (and_high _ imm 0x8F).trans rfl

end Sys2Proof.Laws.TableRow
end

