-- ==== Sys2Proof/Tests/Slice0.lean ====
section
/-! SUPPORT. Tests: the words and vectors of 95_test_vectors.md and the worked examples of the instruction files, one step each, and a
witness for the hypotheses of each obligation. Expected values are the spec's. -/

open Sys2Proof Sys2Proof.Machine

namespace Sys2Proof.Tests

/-! ### Small states -/

/-- The parameters of 95_test_vectors.md, every refusal of them taken. -/
def strict : Config where
  region := resetRegion
  storeToProg := .refuse
  aluPcRead := .refuse
  haltPc := .stays
  haltInc := .stays
  dontCare := .ignore
  undefinedResult := .refuse

/-- The same with an effect for each refusal. -/
def open' : Config :=
  { strict with storeToProg := .writesLowByte, aluPcRead := .reads .next, haltPc := .advances, undefinedResult := .freeValue }

/-- `strict` with address 0xFF answered by nothing. -/
def holed : Config :=
  { strict with region := [{ base := 0x00, size := 0x80, kind := .prog }, { base := 0x80, size := 0x7F, kind := .data }] }

def regs (a b c d m s l : Byte) : Reg → Byte
  | .a => a
  | .b => b
  | .c => c
  | .d => d
  | .m => m
  | .s => s
  | .l => l
  | .pc => 0

/-- A state about to run the instruction at `pc`, with words at 0x11 and 0x20 and data at 0x80, 0x81, 0x82 and 0x90. -/
def at' (cfg : Config) (pc : Byte) (x : Reg → Byte) (cy z s : Bool) : State :=
  State.launch cfg pc x ⟨cy, z, s⟩ [(0x11, 0x00EE), (0x20, 0x81AB)]
    [(0x80, 0x5A), (0x81, 0x33), (0x82, 0x44), (0x90, 0xC3)]

/-- Registers the vectors name: M and S point at data, L at data. -/
def x0 : Reg → Byte := regs 0x12 0x05 0x02 0x07 0x80 0x90 0x82

/-- The program counter at 0x10, no flag set. -/
def s0 (cfg : Config) : State := at' cfg 0x10 x0 false false false

def after {α : Type} (r : Result State) (f : State → α) : Option α :=
  match r with
  | .next t => some (f t)
  | _ => none

def refusalOf {α : Type} (r : Result α) : Option Refusal :=
  match r with
  | .refused x => some x
  | _ => none

def answers {α : Type} (r : Result α) : Bool :=
  match r with
  | .next _ => true
  | _ => false

/-! ### WellFormed refuses the one ill-formed term -/

theorem test_movi_to_pc_is_ill_formed : Instr.wellFormed (.movi .always .pc 0x30) = false := by decide
theorem test_movi_to_l_is_well_formed : Instr.wellFormed (.movi .always .l 0x30) = true := by decide

/-! ### Decoding: a word of every constructor, bit by bit from 30_encoding.md R51 (words of 95_test_vectors.md section 2.1) -/

theorem test_decode_nop : decodeTableWord 16 0b0000000000000000 = some (.nop) := by decide
theorem test_decode_halt : decodeTableWord 16 0b0001000000000000 = some (.halt) := by decide
theorem test_decode_mov : decodeTableWord 16 0b0001111101100000 = some (.mov .pc .l) := by decide
theorem test_decode_loadImm : decodeTableWord 16 0b0010001001000010 = some (.loadImm .c 0x42) := by decide
theorem test_decode_load : decodeTableWord 16 0b0010101100000110 = some (.load .d .l) := by decide
theorem test_decode_storeImm : decodeTableWord 16 0b0011011000010000 = some (.storeImm .l 0x10) := by decide
theorem test_decode_store : decodeTableWord 16 0b0011100000000111 = some (.store .a .pc) := by decide
theorem test_decode_adcReg : decodeTableWord 16 0b0100000000011010 = some (.adcReg (.g .a) .b .c) := by decide
theorem test_decode_adcImm : decodeTableWord 16 0b0100000110100011 = some (.adcImm .f .c 3) := by decide
theorem test_decode_addReg : decodeTableWord 16 0b0100100000001000 = some (.addReg (.g .a) .a .a) := by decide
theorem test_decode_addImm : decodeTableWord 16 0b0100110011001001 = some (.addImm (.g .m) .m 1) := by decide
theorem test_decode_sbcReg : decodeTableWord 16 0b0101010101101111 = some (.sbcReg (.g .s) .l .pc) := by decide
theorem test_decode_sbcImm : decodeTableWord 16 0b0101001110111111 = some (.sbcImm (.g .d) .d 7) := by decide
theorem test_decode_subReg : decodeTableWord 16 0b0101100000000001 = some (.subReg .f .a .b) := by decide
theorem test_decode_subImm : decodeTableWord 16 0b0101100010000000 = some (.subImm .f .a 0) := by decide
theorem test_decode_andReg : decodeTableWord 16 0b0110000000100011 = some (.andReg .f .c .d) := by decide
theorem test_decode_andImm : decodeTableWord 16 0b0110000110011111 = some (.andImm (.g .b) .b 7) := by decide
theorem test_decode_orReg : decodeTableWord 16 0b0110110100001001 = some (.orReg (.g .s) .a .b) := by decide
theorem test_decode_orImm : decodeTableWord 16 0b0110111111001100 = some (.orImm (.g .pc) .m 4) := by decide
theorem test_decode_xorReg : decodeTableWord 16 0b0111000000001000 = some (.xorReg (.g .a) .a .a) := by decide
theorem test_decode_xorImm : decodeTableWord 16 0b0111011011101001 = some (.xorImm (.g .l) .l 1) := by decide
theorem test_decode_not : decodeTableWord 16 0b0111100000010000 = some (.not .f .b) := by decide
theorem test_decode_ror : decodeTableWord 16 0b0111100100101010 = some (.ror (.g .b) .c) := by decide
theorem test_decode_shr : decodeTableWord 16 0b0111101100111100 = some (.shr (.g .d) .d) := by decide
theorem test_decode_rcr : decodeTableWord 16 0b0111111100001110 = some (.rcr (.g .pc) .a) := by decide
theorem test_decode_movi : decodeTableWord 16 0b1101010100000101 = some (.movi .s .s 5) := by decide
theorem test_decode_jmp : decodeTableWord 16 0b1110011100110000 = some (.jmp .nz 0x30) := by decide
theorem test_decode_call : decodeTableWord 16 0b1011111101010000 = some (.call .c 0x50) := by decide

/-- Ignored bits set: 0x07FF is NOP, 0x189F is MOV A, B; and 0x5F01 is CMP A, B with d = 111 (30_encoding.md R53, R65). -/
theorem test_decode_ignored_bits :
    decodeTableWord 16 0x07FF = some .nop ∧ decodeTableWord 16 0x189F = some (.mov .a .b) ∧
      decodeTableWord 16 0x5F01 = some (.subReg .f .a .b) := by decide

/-- 95_test_vectors.md section 2.2. -/
theorem test_decode_refused :
    decode .ignore 0x0800 = .error .unassignedEncoding ∧ decode .ignore 0x8E10 = .error .unassignedEncoding ∧
      decode .ignore 0x7809 = .error .unassignedEncoding ∧ decode .ignore 0xF810 = .error .cond111 ∧
      decode .ignore 0x2903 = .error .pointerCode ∧ decode .mustBeZero 0x07FF = .error .nonzeroDontCare :=
  ⟨rfl, rfl, rfl, rfl, rfl, rfl⟩

/-- Canonical words (95_test_vectors.md section 2.1). -/
theorem test_encode :
    encode (.mov .pc .l) = 0x1F60 ∧ encode (.sbcImm (.g .d) .d 7) = 0x53BF ∧ encode (.subReg .f .a .b) = 0x5801 ∧
      encode (.rcr (.g .pc) .a) = 0x7F0E ∧ encode (.movi .s .s 5) = 0xD505 ∧ encode (.call .nz 0x50) = 0xEF50 := by decide

/-! ### One step of each instruction -/

/-- V-NOP1 -/
theorem test_nop_v_nop1 :
    after (exec (.nop) (at' strict 0x10 x0 true false true)) (fun t => (t.pc, t.a, t.flags)) = some (0x11, 0x12, ⟨true, false, true⟩) := by decide
/-- 40_halt_nop.md R71 (c) -/
theorem test_nop_wraps :
    after (exec (.nop) (at' strict 0xFF x0 false false false)) (fun t => t.pc) = some 0x00 := by decide
/-- V-HLT1, HALT_PC = stays -/
theorem test_halt_stays :
    after (exec (.halt) (s0 strict)) (fun t => (t.halted, t.pc, t.a)) = some (true, 0x10, 0x12) := by decide
/-- V-HLT1, HALT_PC = advances -/
theorem test_halt_advances :
    after (exec (.halt) (s0 open')) (fun t => (t.halted, t.pc, t.a)) = some (true, 0x11, 0x12) := by decide
/-- V-MOV3 -/
theorem test_mov_pc_source :
    after (exec (.mov .a .pc) (s0 strict)) (fun t => (t.a, t.pc)) = some (0x11, 0x11) := by decide
/-- 43_movi_mov.md R92 -/
theorem test_mov_ret :
    after (exec (.mov .pc .l) (s0 strict)) (fun t => (t.pc, t.l)) = some (0x82, 0x82) := by decide
/-- V-LD3 -/
theorem test_loadImm_prog_low_byte :
    after (exec (.loadImm .b 0x20) (s0 strict)) (fun t => (t.b, t.pc)) = some (0xAB, 0x11) := by decide
/-- V-LD5 -/
theorem test_loadImm_to_pc :
    after (exec (.loadImm .pc 0x81) (s0 strict)) (fun t => t.pc) = some 0x33 := by decide
/-- V-LD1 -/
theorem test_load_through_m :
    after (exec (.load .a .m) (at' strict 0x10 x0 true true false)) (fun t => (t.a, t.pc, t.flags)) = some (0x5A, 0x11, ⟨true, true, false⟩) := by decide
/-- V-LD4 -/
theorem test_load_through_pc :
    after (exec (.load .a .pc) (s0 strict)) (fun t => (t.a, t.pc)) = some (0xEE, 0x11) := by decide
/-- V-ST3 -/
theorem test_storeImm_pc :
    after (exec (.storeImm .pc 0x80) (s0 strict)) (fun t => (t.dataCell 0x80, t.dataCell 0x81, t.pc)) = some (0x11, 0x33, 0x11) := by decide
/-- V-ST5 under writes_low_byte: the upper byte of 0x81AB stays -/
theorem test_storeImm_low_byte :
    after (exec (.storeImm .a 0x20) (s0 open')) (fun t => (t.progWord 0x20, t.pc)) = some (0x8112, 0x11) := by decide
/-- V-ST1 -/
theorem test_store_through_s :
    after (exec (.store .a .s) (at' strict 0x10 x0 false true true)) (fun t => (t.dataCell 0x90, t.pc, t.flags)) = some (0x12, 0x11, ⟨false, true, true⟩) := by decide
/-- V-ST4, with M = 0x80 -/
theorem test_store_pointer_through_itself :
    after (exec (.store .m .m) (s0 strict)) (fun t => (t.dataCell 0x80, t.pc)) = some (0x80, 0x11) := by decide
/-- V-ALU2 -/
theorem test_adcReg_rotates :
    after (exec (.adcReg (.g .a) .a .a) (at' strict 0x10 (regs 0x41 0 0 0 0x80 0x90 0x82) true false false)) (fun t => (t.a, t.flags)) = some (0x83, ⟨false, false, true⟩) := by decide
/-- 44_alu_binary.md R96: 0xFF + 0x00 + 1 -/
theorem test_adcReg_carry_out :
    after (exec (.adcReg (.g .a) .b .c) (at' strict 0x10 (regs 0 0xFF 0x00 0 0x80 0x90 0x82) true false false)) (fun t => (t.a, t.flags)) = some (0x00, ⟨true, true, false⟩) := by decide
/-- VB6 -/
theorem test_adcImm :
    after (exec (.adcImm (.g .a) .b 1) (at' strict 0x10 (regs 0 0xFF 0 0 0x80 0x90 0x82) true false false)) (fun t => (t.a, t.flags)) = some (0x01, ⟨true, false, false⟩) := by decide
/-- V-ALU1 -/
theorem test_addReg_shifts :
    after (exec (.addReg (.g .a) .a .a) (at' strict 0x10 (regs 0xC1 0 0 0 0x80 0x90 0x82) false false false)) (fun t => (t.a, t.flags)) = some (0x82, ⟨true, false, true⟩) := by decide
/-- V-ALU6 -/
theorem test_addReg_to_pc :
    after (exec (.addReg (.g .pc) .a .b) (at' strict 0x10 (regs 0x20 0x04 0 0 0x80 0x90 0x82) true true true)) (fun t => (t.pc, t.flags)) = some (0x24, ⟨false, false, false⟩) := by decide
/-- V-ALU12 under ALU_PC_READ = next -/
theorem test_addReg_pc_source :
    after (exec (.addReg (.g .a) .pc .a) (at' open' 0x10 (regs 0x01 0 0 0 0x80 0x90 0x82) false false false)) (fun t => (t.a, t.flags)) = some (0x12, ⟨false, false, false⟩) := by decide
/-- V-ALU7, on B -/
theorem test_addImm_wraps :
    after (exec (.addImm (.g .b) .b 1) (at' strict 0x10 (regs 0 0xFF 0 0 0x80 0x90 0x82) false false false)) (fun t => (t.b, t.flags)) = some (0x00, ⟨true, true, false⟩) := by decide
/-- VB65, t = -256 -/
theorem test_sbcReg_min :
    after (exec (.sbcReg (.g .a) .b .c) (at' strict 0x10 (regs 0 0x00 0xFF 0 0x80 0x90 0x82) true false false)) (fun t => (t.a, t.flags)) = some (0x00, ⟨true, true, false⟩) := by decide
/-- V-ALU8 -/
theorem test_sbcImm :
    after (exec (.sbcImm (.g .d) .d 7) (at' strict 0x10 (regs 0 0 0 0x07 0x80 0x90 0x82) true false false)) (fun t => (t.d, t.flags)) = some (0xFF, ⟨true, false, true⟩) := by decide
/-- V-ALU3 -/
theorem test_subReg_cmp :
    after (exec (.subReg .f .a .b) (at' strict 0x10 (regs 0x05 0x07 0 0 0x80 0x90 0x82) false false false)) (fun t => (t.pc, t.flags)) = some (0x11, ⟨true, false, true⟩) := by decide
/-- VB73 -/
theorem test_subReg_no_overflow_flag :
    after (exec (.subReg (.g .a) .a .b) (at' strict 0x10 (regs 0x80 0x01 0 0 0x80 0x90 0x82) true false false)) (fun t => (t.a, t.flags)) = some (0x7F, ⟨false, false, false⟩) := by decide
/-- 44_alu_binary.md R99, example -/
theorem test_subImm :
    after (exec (.subImm (.g .b) .b 1) (at' strict 0x10 (regs 0 0x05 0 0 0x80 0x90 0x82) true false false)) (fun t => (t.b, t.flags)) = some (0x04, ⟨false, false, false⟩) := by decide
/-- 44_alu_binary.md R100, example -/
theorem test_andReg_tst :
    after (exec (.andReg .f .c .d) (at' strict 0x10 (regs 0 0 0xF0 0x3C 0x80 0x90 0x82) true false false)) (fun t => (t.pc, t.flags)) = some (0x11, ⟨false, false, false⟩) := by decide
/-- V-ALU5 -/
theorem test_andImm :
    after (exec (.andImm .f .c 4) (at' strict 0x10 (regs 0 0 0x2C 0 0x80 0x90 0x82) true true true)) (fun t => (t.c, t.flags)) = some (0x2C, ⟨false, false, false⟩) := by decide
/-- V-ALU13 -/
theorem test_orReg :
    after (exec (.orReg (.g .s) .a .b) (at' strict 0x10 (regs 0x80 0x01 0 0 0x80 0x90 0x82) true true false)) (fun t => (t.s, t.flags)) = some (0x81, ⟨false, false, true⟩) := by decide
/-- VB101 -/
theorem test_orImm :
    after (exec (.orImm (.g .a) .b 7) (at' strict 0x10 (regs 0 0x05 0 0 0x80 0x90 0x82) true false false)) (fun t => (t.a, t.flags)) = some (0x07, ⟨false, false, false⟩) := by decide
/-- V-ALU10 -/
theorem test_xorReg :
    after (exec (.xorReg (.g .a) .a .a) (at' strict 0x10 (regs 0x5A 0 0 0 0x80 0x90 0x82) true false true)) (fun t => (t.a, t.flags)) = some (0x00, ⟨false, true, false⟩) := by decide
/-- VB114 -/
theorem test_xorImm :
    after (exec (.xorImm (.g .b) .b 7) (at' strict 0x10 (regs 0 0x05 0 0 0x80 0x90 0x82) true false false)) (fun t => (t.b, t.flags)) = some (0x02, ⟨false, false, false⟩) := by decide
/-- V-UN1 -/
theorem test_not :
    after (exec (.not (.g .a) .a) (at' strict 0x10 (regs 0x0F 0 0 0 0x80 0x90 0x82) true true false)) (fun t => (t.a, t.flags)) = some (0xF0, ⟨false, false, true⟩) := by decide
/-- 45_alu_unary.md R112, example -/
theorem test_ror :
    after (exec (.ror (.g .b) .c) (at' strict 0x10 (regs 0 0 0x81 0 0x80 0x90 0x82) true true false)) (fun t => (t.b, t.flags)) = some (0xC0, ⟨false, false, true⟩) := by decide
/-- V-UN4 -/
theorem test_shr :
    after (exec (.shr (.g .d) .d) (at' strict 0x10 (regs 0 0 0 0x81 0x80 0x90 0x82) false true true)) (fun t => (t.d, t.flags)) = some (0x40, ⟨true, false, false⟩) := by decide
/-- V-UN5 -/
theorem test_rcr :
    after (exec (.rcr (.g .c) .c) (at' strict 0x10 (regs 0 0 0x02 0 0x80 0x90 0x82) true false false)) (fun t => (t.c, t.flags)) = some (0x81, ⟨false, false, true⟩) := by decide
/-- V-UN7 -/
theorem test_rcr_to_pc :
    after (exec (.rcr (.g .pc) .a) (at' strict 0x10 (regs 0x61 0 0 0 0x80 0x90 0x82) false false false)) (fun t => (t.pc, t.flags)) = some (0x30, ⟨true, false, false⟩) := by decide
/-- V-MOVI5 -/
theorem test_movi_taken :
    after (exec (.movi .s .s 5) (at' strict 0x10 x0 false false true)) (fun t => (t.s, t.pc, t.flags)) = some (0x05, 0x11, ⟨false, false, true⟩) := by decide
/-- V-MOVI3 -/
theorem test_movi_not_taken :
    after (exec (.movi .nz .b 0x10) (at' strict 0x10 x0 false true false)) (fun t => (t.b, t.pc)) = some (0x05, 0x11) := by decide
/-- V-JMP4 -/
theorem test_jmp_taken :
    after (exec (.jmp .nc 0x10) (s0 strict)) (fun t => t.pc) = some 0x10 := by decide
/-- V-JMP3 -/
theorem test_jmp_not_taken :
    after (exec (.jmp .z 0x30) (s0 strict)) (fun t => t.pc) = some 0x11 := by decide
/-- V-CALL4 -/
theorem test_call_taken :
    after (exec (.call .ns 0x00) (at' strict 0x7F x0 false false false)) (fun t => (t.l, t.pc)) = some (0x80, 0x00) := by decide
/-- V-CALL3 -/
theorem test_call_not_taken :
    after (exec (.call .c 0x50) (s0 strict)) (fun t => (t.l, t.pc)) = some (0x82, 0x11) := by decide

/-! ### Steps and stops -/

/-- 20_memory.md R33: a fetch from data memory; and V-JMP6's next fetch. -/
theorem test_fetch_from_data : refusalOf (step (at' strict 0x90 x0 false false false)) = some .fetchFromData := by decide
theorem test_fetch_unmapped : refusalOf (step (at' holed 0xFF x0 false false false)) = some .accessToUnmapped := by decide
/-- V-UN8. -/
theorem test_step_unassigned :
    refusalOf (step ((s0 strict).withFetchWord 16 0x7809)) = some (.encoding .unassignedEncoding) := by decide
/-- 43_movi_mov.md, example of MOVI: word 0x8105 (`MOVI B, 5`). -/
theorem test_step_movi : after (step ((s0 strict).withFetchWord 16 0x8105)) (fun t => (t.b, t.pc)) = some (0x05, 0x11) := by decide
/-- A word fetched as the first instruction after reset: `CALL 0x06` (42_call_jump.md R86). -/
theorem test_step_from_reset : after (step (State.reset.withFetchWord 16 0x8F06)) (fun t => (t.l, t.pc)) = some (0x01, 0x06) := by decide
theorem test_halted_stays : after (step { s0 strict with halted := true }) (fun t => (t.pc, t.halted)) = some (0x10, true) := by decide
/-- V-MOV6, V-LD9, V-ST5, V-ALU12: the refusals of the spec's own parameters. -/
theorem test_spec_refusals :
    refusalOf (exec (.mov .a .a) (s0 strict)) = some .movToItself ∧
      refusalOf (exec (.load .s .s) (s0 strict)) = some .loadThroughItself ∧
      refusalOf (exec (.storeImm .a 0x20) (s0 strict)) = some .storeToProg ∧
      refusalOf (exec (.addReg (.g .a) .pc .a) (s0 strict)) = some .aluPcSource := by decide
/-- 93_implementation_defined.md U1: what is not the destination is as after any MOV. -/
theorem test_mov_itself_runs : after (exec (.mov .a .a) (s0 open')) (fun t => (t.b, t.pc, t.draws)) = some (0x05, 0x11, 1) := by decide

/-! ### Witnesses: the hypotheses of each obligation met together, each clause at a value of its own -/

theorem witness_StepRunsDecodedInstruction :
    ((s0 strict).withFetchWord 16 0x8105).halted = false ∧ ((s0 strict).withFetchWord 16 0x8105).region ((s0 strict).withFetchWord 16 0x8105).pc = .prog ∧
      decode ((s0 strict).withFetchWord 16 0x8105).cfg.dontCare (((s0 strict).withFetchWord 16 0x8105).progWord ((s0 strict).withFetchWord 16 0x8105).pc) = .ok (.movi .always .b 5) := ⟨rfl, rfl, rfl⟩
theorem witness_WithFetchWordRunsThatWord :
    decode (s0 strict).cfg.dontCare 0x8F06 = .ok (.call .always 0x06) ∧ (s0 strict).region (s0 strict).pc = .prog := ⟨rfl, rfl⟩
theorem witness_FetchStopsByName :
    (at' strict 0x80 x0 false false false).region 0x80 = .data ∧ (at' holed 0xFF x0 false false false).region 0xFF = .none ∧
      (at' strict 0x7F x0 false false false).region 0x7F = .prog ∧ decode .ignore 0xFFFF = .error .cond111 := ⟨rfl, rfl, rfl, rfl⟩
theorem witness_HaltedMachineNeverMoves :
    { s0 strict with halted := true }.halted = true := rfl
theorem witness_StepKeepsMemoriesCanonical :
    ((s0 strict).withFetchWord 16 0x8105).wf = true ∧ answers (step ((s0 strict).withFetchWord 16 0x8105)) = true := by decide
theorem witness_StepKeepsMemoriesInTheirRegions :
    ((s0 strict).withFetchWord 16 0x8105).placed = true ∧ answers (step ((s0 strict).withFetchWord 16 0x8105)) = true := by decide
theorem witness_StepKeepsParameters :
    answers (step ((s0 strict).withFetchWord 16 0x3080)) = true := by decide
theorem witness_RefusedStoresKeepProgramMemory :
    ((s0 strict).withFetchWord 16 0x8105).cfg.storeToProg = .refuse ∧ answers (Sys2Proof.core.run 1 ((s0 strict).withFetchWord 16 0x8105)) = true := by decide
theorem witness_UpperBytesOfProgramNeverChange :
    answers (Sys2Proof.core.run 1 ((s0 open').withFetchWord 16 0x3020)) = true := by decide
/-- Every address of the map is prog or data, and each parameter names an effect. -/
theorem witness_EveryInstructionCompletes : Effectful open' :=
  ⟨by decide, rfl, by decide, rfl⟩
theorem witness_ExecStopsOnlyByTheListedReasons :
    refusalOf (exec (.mov .pc .pc) (s0 strict)) = some .movToItself ∧
      refusalOf (exec (.load .pc .pc) (s0 strict)) = some .loadThroughItself ∧
      refusalOf (exec (.rcr .f .pc) (s0 strict)) = some .aluPcSource ∧
      refusalOf (exec (.store .a .pc) (s0 strict)) = some .storeToProg ∧
      refusalOf (exec (.loadImm .a 0xFF) (s0 holed)) = some .accessToUnmapped ∧
      refusalOf (exec (.store .a .pc) (at' holed 0xFE x0 false false false)) = some .accessToUnmapped := by decide
theorem witness_DecodeOfEncodeIsTheInstruction :
    Instr.wellFormed (.movi .nz .l 0xFF) = true := by decide
theorem witness_EncodeOfDecodeIsTheWord :
    decode .ignore 0x189F = .ok (.mov .a .b) ∧ decode .ignore 0x5F01 = .ok (.subReg .f .a .b) := ⟨rfl, rfl⟩
theorem witness_DecodedWordLiesInItsTableRow :
    decode .ignore 0x7FFE = .ok (.rcr (.g .pc) .pc) := rfl
theorem witness_MustBeZeroRefusesDashBits :
    decode .ignore 0x07FF = .ok .nop ∧ decode .ignore 0x0000 = .ok .nop ∧
      decode .ignore 0x28F8 = .error .pointerCode := ⟨rfl, rfl, rfl⟩
theorem witness_ConditionsReadTheirFlag :
    field 0xF810 15 1 = 1 ∧ field 0xF810 12 3 = 7 ∧ answers (exec (.movi .nz .a 0) (s0 strict)) = true ∧
      answers (exec (.jmp .s 0) (s0 strict)) = true ∧ answers (exec (.call .c 0) (s0 strict)) = true := by decide
theorem witness_AluSourceReadFollowsParameter :
    strict.aluPcRead = .refuse ∧ { strict with aluPcRead := .reads .current }.aluPcRead = .reads .current ∧
      open'.aluPcRead = .reads .next := by decide
theorem witness_DataReadSeesItsRegion :
    (s0 holed).region 0xFE = .data ∧ (s0 holed).region 0x7F = .prog ∧ (s0 holed).region 0xFF = .none := by decide
theorem witness_NopOnlyMovesOn :
    ((s0 strict).withFetchWord 16 0x002C).region 0x10 = .prog ∧
      decode .ignore (((s0 strict).withFetchWord 16 0x002C).progWord 0x10) = .ok .nop := ⟨rfl, rfl⟩
theorem witness_HaltStopsTheClock :
    (s0 strict).cfg.haltPc = .stays ∧ (s0 open').cfg.haltPc = .advances := by decide
theorem witness_MovCopiesTheSource :
    Reg.pc ≠ Reg.l ∧ Reg.a ≠ Reg.pc := by decide
theorem witness_MovToItselfIsRefusedOrFree :
    (s0 strict).cfg.undefinedResult = .refuse ∧ (s0 open').cfg.undefinedResult = .freeValue := by decide
theorem witness_LoadImmReadsTheAddress :
    memRead (s0 strict) 0x90 = .next 0xC3 ∧ memRead (s0 strict) 0x20 = .next 0xAB ∧ (s0 holed).region 0xFF = .none := ⟨rfl, rfl, rfl⟩
theorem witness_LoadReadsThroughThePointer :
    Reg.pc ≠ Ptr.l.reg ∧ memRead (s0 strict) (operand (s0 strict) Ptr.l.reg) = .next 0x44 ∧
      memRead (s0 strict) (operand (s0 strict) Ptr.pc.reg) = .next 0xEE ∧
      (at' holed 0x10 (regs 0 0 0 0 0xFF 0 0) false false false).region 0xFF = .none := ⟨by decide, rfl, rfl, rfl⟩
theorem witness_LoadThroughItselfIsRefusedOrFree :
    (s0 open').cfg.undefinedResult = .freeValue ∧ (s0 open').region (operand (s0 open') Ptr.m.reg) ≠ .none ∧
      (at' { holed with undefinedResult := .freeValue } 0xFE x0 false false false).region
        (operand (at' { holed with undefinedResult := .freeValue } 0xFE x0 false false false) Ptr.pc.reg) = .none := by decide
theorem witness_StoresWriteOneLocation :
    Storable (s0 strict) 0x80 ∧ Storable (s0 open') 0x7F ∧ Storable (s0 strict) ((s0 strict).advance.getReg Ptr.m.reg) ∧
      Storable (s0 open') ((s0 open').advance.getReg Ptr.pc.reg) := ⟨.inl rfl, .inr ⟨rfl, rfl⟩, .inl rfl, .inr ⟨rfl, rfl⟩⟩
theorem witness_StoresStopByName :
    (s0 strict).region 0x7F = .prog ∧ (s0 strict).cfg.storeToProg = .refuse ∧ (s0 holed).region 0xFF = .none ∧
      (s0 strict).region (operand (s0 strict) Ptr.pc.reg) = .prog ∧
      (at' holed 0x10 (regs 0 0 0 0 0xFF 0 0) false false false).region
        (operand (at' holed 0x10 (regs 0 0 0 0 0xFF 0 0) false false false) Ptr.m.reg) = .none := by decide
theorem witness_LoadAndFetchSeeTheStore :
    answers (exec (.storeImm .a 0x80) (s0 strict)) = true ∧ answers (exec (.storeImm .a 0x20) (s0 open')) = true ∧
      (s0 open').region 0x20 = .prog ∧ answers (exec (.store .a .m) (s0 strict)) = true ∧
      answers (exec (.store .pc .pc) (s0 open')) = true ∧ (s0 open').region ((s0 open').advance.getReg Ptr.pc.reg) = .prog := by
  decide
theorem witness_conditions_both_ways :
    condHolds .nz (s0 strict).flags = true ∧ condHolds .z (s0 strict).flags = false := by decide
theorem witness_alu_sources :
    aluRead (s0 strict) .a = .next 0x12 ∧ aluRead (s0 strict) .b = .next 0x05 ∧ aluRead (s0 open') .pc = .next 0x11 := ⟨rfl, rfl, rfl⟩
theorem witness_AluWithPcSourceIsRefused :
    (s0 strict).cfg.aluPcRead = .refuse ∧ Reg.a ≠ Reg.pc := by decide
theorem witness_AluLatchesItsSources :
    answers (exec (.xorReg .f .a .b) (s0 strict)) = true ∧ answers (exec (.subImm .f .a 7) (s0 strict)) = true ∧
      answers (exec (.not .f .pc) (s0 open')) = true := by decide
theorem witness_CmpComparesUnsigned :
    Reg.a ≠ Reg.pc ∧ Reg.b ≠ Reg.pc := by decide
theorem witness_OnlyAluWritesFlags :
    isAlu (.call .always 0) = false ∧ answers (exec (.call .always 0) (s0 strict)) = true := by decide
theorem witness_OnlyNamedRegistersAreWritten :
    answers (exec (.call .always 0) (s0 strict)) = true ∧ Reg.m ≠ Reg.pc ∧ Reg.m ∉ writes (.call .always 0) := by decide
theorem witness_OnlyStoresWriteMemory :
    isStore (.loadImm .a 0x80) = false ∧ answers (exec (.loadImm .a 0x80) (s0 strict)) = true := by decide
theorem witness_PcAdvancesUnlessWritten :
    Instr.storeImm .a 0x80 ≠ .halt ∧ answers (exec (.storeImm .a 0x80) (s0 strict)) = true ∧ Reg.pc ∉ writes (.storeImm .a 0x80) := by decide
theorem witness_OnlyHaltStopsTheClock :
    answers (exec .halt (s0 strict)) = true ∧ answers (exec .nop (s0 strict)) = true := by decide
theorem witness_FreeDrawsOnlyForUndefinedResults :
    answers (exec (.mov .pc .pc) (s0 open')) = true ∧ answers (exec (.load .m .m) (s0 open')) = true ∧
      answers (exec (.mov .a .b) (s0 open')) = true := by decide

end Sys2Proof.Tests
end

/-! PROOFS. The four unary ALU operations (45_alu_unary.md): the words of their rows, the effect of their frame, and what their
functions compute. -/

namespace Sys2Proof

/-! ### Fields as masks -/

/-- What a field holds, said with the mask that covers it. -/
theorem and_of_field {w : Word} (lo len : Nat) {c : BitVec len} (h : field w lo len = c) :
    w &&& (BitVec.allOnes len).setWidth 16 <<< lo = c.setWidth 16 <<< lo := by
  subst h
  ext i hi
  by_cases hlo : i < lo
  · simp [hlo]
  · by_cases hlen : i - lo < len
    · simp [field, hlo, hlen, Nat.add_sub_cancel' (Nat.le_of_not_lt hlo), BitVec.getLsbD_eq_getElem hi]
    · simp [field, hlo, hlen]

/-- A field inside a field. -/
theorem field_field (w : Word) (lo len k n : Nat) (h : k + n ≤ len) :
    (field w lo len).extractLsb' k n = field w (lo + k) n := by
  unfold field
  ext i hi
  simp [show k + i < len by omega, Nat.add_assoc]

/-! ### The forms of a decoded word -/

/-- The check of the `-` bits can only refuse; it never changes the instruction. -/
theorem checkDashes_eq_ok {dc : DontCare} {dashes w : Word} {r : Except EncodingReject Instr} {i : Instr}
    (h : checkDashes dc dashes w r = .ok i) : r = .ok i := by
  cases dc with
  | ignore => exact h
  | mustBeZero =>
    simp only [checkDashes] at h
    split at h
    · exact h
    · cases h

/-- A decoded binary ALU word is the operation's register form or its immediate form. -/
theorem decodeBinary_eq_ok {reg : Dest → Reg → Reg → Instr} {imm : Dest → Reg → BitVec 3 → Instr} {w : Word} {i : Instr}
    (h : decodeBinary reg imm w = .ok i) : (∃ gd x y, i = reg gd x y) ∨ ∃ gd x y, i = imm gd x y := by
  unfold decodeBinary at h
  split at h <;> cases h
  · exact .inr ⟨_, _, _, rfl⟩
  · exact .inl ⟨_, _, _, rfl⟩

/-- The unary operation of code `uu` (30_encoding.md R58). -/
def unaryInstr (u : BitVec 2) (gd : Dest) (gs : Reg) : Instr :=
  match u.toNat with
  | 0 => .not gd gs
  | 1 => .ror gd gs
  | 2 => .shr gd gs
  | _ => .rcr gd gs

/-- The match of the row of code `uu` (45_alu_unary.md R111 to R114). -/
def unaryRow (u : BitVec 2) : Word := 0x7800#16 ||| u.setWidth 16 <<< 1

theorem unaryInstr_tableRow (u : BitVec 2) (gd : Dest) (gs : Reg) :
    (unaryInstr u gd gs).tableRow = (0xF807, unaryRow u) := by
  match u with
  | 0 | 1 | 2 | 3 => rfl

theorem field_unaryRow_opcode (u : BitVec 2) : field (unaryRow u) 11 5 = 15 := by revert u; decide

theorem field_unaryRow_code (u : BitVec 2) : field (unaryRow u) 1 2 = u := by revert u; decide

theorem field_unaryRow_bit_zero (u : BitVec 2) : field (unaryRow u) 0 1 = 0 := by revert u; decide

/-- Unary words that decode are those with bit 0 = 0 (30_encoding.md R60 X4), and bits[2:1] name the operation. -/
theorem decodeUnary_eq_ok {dc : DontCare} {w : Word} {i : Instr} (h : decodeUnary dc w = .ok i) :
    field w 0 1 = 0 ∧ i = unaryInstr (field w 1 2) (aluDest w) (Reg.ofCode (field w 4 3)) := by
  unfold decodeUnary at h
  split at h
  case isTrue => cases h
  case isFalse hbit =>
    cases checkDashes_eq_ok h
    exact ⟨(show ∀ b : BitVec 1, b ≠ 1 → b = 0 by decide) _ hbit, rfl⟩

/-! ### The decoder keeps the opcode -/

/-- The opcode bits[15:11] of a word agree with the row of an instruction where the row's mask looks at them. -/
def Instr.HasOpcode (i : Instr) (op : BitVec 5) : Prop := op &&& field i.tableRow.1 11 5 = field i.tableRow.2 11 5

theorem unaryInstr_hasOpcode {u : BitVec 2} {gd : Dest} {gs : Reg} {op : BitVec 5} :
    (unaryInstr u gd gs).HasOpcode op ↔ op = 15 := by
  rw [Instr.HasOpcode, unaryInstr_tableRow, field_unaryRow_opcode]
  dsimp only
  revert op; decide

/-- In the conditional group bit 11 tells MOVI and JMP from CALL, and bit 15 is 1. -/
theorem decodeConditional_hasOpcode {w : Word} {i : Instr} (h : decodeConditional w = .ok i) (hop : 16 ≤ (field w 11 5).toNat) :
    i.HasOpcode (field w 11 5) := by
  have hbit : (field w 11 5).extractLsb' 0 1 = field w 11 1 := field_field w 11 5 0 1 (by decide)
  have h0 : ∀ op : BitVec 5, 16 ≤ op.toNat → op.extractLsb' 0 1 = 0 → op &&& 17 = 16 := by decide
  have h1 : ∀ op : BitVec 5, 16 ≤ op.toNat → op.extractLsb' 0 1 ≠ 0 → op &&& 17 = 17 := by decide
  unfold decodeConditional at h
  split at h
  · cases h
  · dsimp only at h
    rw [← hbit] at h
    generalize field w 11 5 = op at *
    split at h
    case isTrue hz => split at h <;> cases h <;> simpa [Instr.HasOpcode, Instr.tableRow, field] using h0 op hop hz
    case isFalse hz =>
      split at h <;> cases h
      simpa [Instr.HasOpcode, Instr.tableRow, field] using h1 op hop hz

/-- A word decodes to an instruction of its own opcode: the decoder never leaves the row bits[15:11] select. -/
theorem decode_hasOpcode {dc : DontCare} {w : Word} {i : Instr} (h : decode dc w = .ok i) : i.HasOpcode (field w 11 5) := by
  have hnum : ∀ {n : Nat}, (field w 11 5).toNat = n → field w 11 5 = BitVec.ofNat 5 n := fun hn => by simp [← hn]
  unfold decode at h
  split at h
  case h_9 | h_10 | h_11 | h_12 | h_13 | h_14 | h_15 =>
    rw [hnum ‹_›]
    obtain ⟨_, _, _, rfl⟩ | ⟨_, _, _, rfl⟩ := decodeBinary_eq_ok h <;> simp [Instr.HasOpcode, Instr.tableRow, field]
  case h_2 => cases h
  case h_1 | h_3 | h_4 =>
    rw [hnum ‹_›]
    cases checkDashes_eq_ok h
    simp [Instr.HasOpcode, Instr.tableRow, field]
  case h_5 | h_7 =>
    rw [hnum ‹_›]
    cases h
    simp [Instr.HasOpcode, Instr.tableRow, field]
  case h_6 | h_8 =>
    rw [hnum ‹_›]
    have h := checkDashes_eq_ok h
    split at h <;> cases h
    simp [Instr.HasOpcode, Instr.tableRow, field]
  case h_16 hop =>
    obtain ⟨_, rfl⟩ := decodeUnary_eq_ok h
    exact unaryInstr_hasOpcode.2 (hnum hop)
  case h_17 =>
    exact decodeConditional_hasOpcode h (by grind)

/-! ### The row of a unary ALU word -/

/-- The row of a unary operation fixes the opcode, the code `uu` and bit 0, and nothing else. -/
theorem and_eq_unaryRow_iff {w : Word} {u : BitVec 2} :
    w &&& 0xF807 = unaryRow u ↔ field w 11 5 = 15 ∧ field w 1 2 = u ∧ field w 0 1 = 0 := by
  constructor
  · intro h
    rw [field_of_and 11 5 h (by decide), field_of_and 1 2 h (by decide), field_of_and 0 1 h (by decide)]
    exact ⟨field_unaryRow_opcode u, field_unaryRow_code u, field_unaryRow_bit_zero u⟩
  · rintro ⟨hop, hu, hbit⟩
    have hmask : (0xF807 : Word) = (BitVec.allOnes 5).setWidth 16 <<< 11 ||| (BitVec.allOnes 2).setWidth 16 <<< 1 |||
        (BitVec.allOnes 1).setWidth 16 <<< 0 := by decide
    rw [hmask, BitVec.and_or_distrib_left, BitVec.and_or_distrib_left,
      and_of_field 11 5 hop, and_of_field 1 2 hu, and_of_field 0 1 hbit]
    simp [unaryRow]

theorem unaryInstr_code_inj {u u' : BitVec 2} {gd gd' : Dest} {gs gs' : Reg}
    (h : unaryInstr u gd gs = unaryInstr u' gd' gs') : u = u' := by
  have hrow : unaryRow u = unaryRow u' := by simpa [unaryInstr_tableRow] using congrArg Instr.tableRow h
  rw [← field_unaryRow_code u, hrow, field_unaryRow_code]

theorem decode_of_opcode_unary {dc : DontCare} {w : Word} (h : field w 11 5 = 15) : decode dc w = decodeUnary dc w := by
  simp [decode, h]

theorem decodeUnary_ignore {w : Word} (h : field w 0 1 = 0) :
    decodeUnary .ignore w = .ok (unaryInstr (field w 1 2) (aluDest w) (Reg.ofCode (field w 4 3))) := by
  rw [decodeUnary, if_neg (by simp [h])]; rfl

/-- The words of a unary row are exactly those that decode to its operation (30_encoding.md R58, R62). -/
theorem and_eq_unaryRow_iff_decode (u : BitVec 2) (w : Word) :
    w &&& 0xF807 = unaryRow u ↔ ∃ gd gs, decode .ignore w = .ok (unaryInstr u gd gs) := by
  rw [and_eq_unaryRow_iff]
  constructor
  · rintro ⟨hop, rfl, hbit⟩
    exact ⟨aluDest w, Reg.ofCode (field w 4 3), by rw [decode_of_opcode_unary hop, decodeUnary_ignore hbit]⟩
  · rintro ⟨gd, gs, h⟩
    have hop : field w 11 5 = 15 := unaryInstr_hasOpcode.1 (decode_hasOpcode h)
    obtain ⟨hbit, hi⟩ := decodeUnary_eq_ok (decode_of_opcode_unary hop ▸ h)
    exact ⟨hop, (unaryInstr_code_inj hi).symm, hbit⟩

end Sys2Proof

namespace Sys2Proof.Machine

/-! ### The effect of an ALU operation -/

/-- The write-back of the Exec phase, made in a state that phases 1 and 2 have only moved on (30_encoding.md R65). -/
theorem MovedOn.wroteDest {s u : State} (h : MovedOn s u) (gd : Dest) (v : Byte) : WroteDest gd v s (u.writeDest gd v) := by
  obtain ⟨hpc, hregs⟩ := h
  cases gd with
  | f => exact ⟨hpc, hregs⟩
  | g r =>
    refine ⟨by simp, fun hr => ?_, fun r' hr' hw => ?_⟩
    · rw [State.writeDest_g, State.setReg_pc_other _ _ hr, hpc]
    · have hne : r' ≠ r := by simpa using hw
      rw [State.writeDest_g, State.getReg_setReg_other _ _ hne, hregs r' hr' (by simp)]

theorem MovedOn.of_flags {s u : State} (h : MovedOn s u) (f : Flags) : MovedOn s { u with flags := f } := by
  obtain ⟨hpc, hregs⟩ := h
  have hget : ∀ r, State.getReg { u with flags := f } r = u.getReg r := fun r => by cases r <;> rfl
  exact ⟨hpc, fun r hr hw => (hget r).trans (hregs r hr hw)⟩

/-- The Exec phase of an ALU operation has its whole effect when phases 1 and 2 have only moved the machine on. -/
theorem finishAlu_aluEffect {s u : State} {gd : Dest} {res : Byte} {cy : Bool}
    (hmoved : MovedOn s u) (hpmem : u.pmem = s.pmem) (hdmem : u.dmem = s.dmem) (hrun : KeepsRun s u) :
    AluEffect gd res cy s (u.finishAlu gd (aluOut res cy)) := by
  obtain ⟨hhalted, hcfg, hdraws, hinc⟩ := hrun
  refine ⟨(hmoved.of_flags _).wroteDest gd res, ?flags, ?mem, ?run⟩
  case flags => simp [BitVec.msb_eq_getLsbD_last]
  case mem => exact ⟨State.dataCell_congr (by simp [hdmem]), State.progWord_congr (by simp [hpmem])⟩
  case run => simp [KeepsRun, hhalted, hcfg, hdraws, hinc]

theorem advance_latchOperand_movedOn (s : State) (v : Byte) : MovedOn s (s.advance.latchOperand v) :=
  ⟨by simp, fun r hr _ => by rw [State.getReg_latchOperand, State.getReg_advance_other s hr]⟩

/-- The unary frame answers, with the effect of what its function computes, whenever its source can be read. -/
theorem aluUnary_aluEffect {f : Byte → Bool → AluOut} {gd : Dest} {g : Reg} {s : State} {v res : Byte} {cy : Bool}
    (hread : aluRead s g = .next v) (hf : f v s.flags.cy = aluOut res cy) :
    ∃ t, aluUnary f gd g s = .next t ∧ AluEffect gd res cy s t :=
  ⟨_, aluUnary_eq_next.2 ⟨v, hread, rfl⟩,
    hf ▸ finishAlu_aluEffect (advance_latchOperand_movedOn s v) rfl rfl ⟨rfl, rfl, rfl, rfl⟩⟩

/-- An instruction of code `uu` that runs the unary frame is the unary operation its function computes. -/
theorem unaryOp_of_aluUnary (u : BitVec 2) {f : Byte → Bool → AluOut} {res : Byte → Bool → Byte} {cy : Byte → Bool → Bool}
    (hexec : ∀ gd g s, exec (unaryInstr u gd g) s = aluUnary f gd g s) (hf : ∀ v cin, f v cin = aluOut (res v cin) (cy v cin)) :
    UnaryOp (unaryInstr u) res cy (unaryRow u) := by
  refine ⟨fun gd g s v hread => ?_, and_eq_unaryRow_iff_decode u⟩
  rw [hexec]
  exact aluUnary_aluEffect hread (hf v s.flags.cy)

/-! ### What the shifts compute -/

/-- Every bit of a shifted byte is the bit above it, and the top bit is the one that enters. -/
theorem getLsbD_shiftRightWith (top : Bool) (g : Byte) {i : Nat} (hi : i < 8) :
    (shiftRightWith top g).getLsbD i = if i < 7 then g.getLsbD (i + 1) else top := by
  have happ := BitVec.getLsbD_append (x := BitVec.ofBool top) (y := g.extractLsb' 1 7) (i := i)
  refine happ.trans ?_
  by_cases h7 : i < 7
  · simp [h7, Nat.add_comm]
  · simp [show i = 7 by omega]

theorem shiftRightWith_bit_zero (g : Byte) : shiftRightWith (g.getLsbD 0) g = g.rotateRight 1 := by
  apply BitVec.eq_of_getLsbD_eq
  intro i hi
  rw [getLsbD_shiftRightWith _ _ hi]
  by_cases h7 : i < 7
  · simp [BitVec.getLsbD_rotateRight, h7, Nat.add_comm]
  · simp [show i = 7 by omega]

theorem shiftRightWith_eq_or (top : Bool) (g : Byte) : shiftRightWith top g = (g >>> 1) ||| (if top then 0x80 else 0x00) := by
  apply BitVec.eq_of_getLsbD_eq
  intro i hi
  have htop : ∀ top : Bool, (if top then 0x80 else 0x00 : Byte).getLsbD i = (top && decide (i = 7)) := by
    decide +revert
  rw [getLsbD_shiftRightWith _ _ hi, BitVec.getLsbD_or, htop]
  by_cases h7 : i < 7
  · simp [h7, Nat.add_comm, show i ≠ 7 by omega]
  · simp [show i = 7 by omega]

theorem shiftRightWith_false (g : Byte) : shiftRightWith false g = g >>> 1 := by
  simp [shiftRightWith_eq_or]

/-! ### The four operations -/

/-- Settles O45: complementing is the exclusive or with eight ones. -/
theorem notComplementsEveryBit : Obligations.NotComplementsEveryBit :=
  unaryOp_of_aluUnary 0 (fun _ _ _ => rfl) fun v _ => by
    have hxor : v ^^^ 0xFF = ~~~v := BitVec.xor_allOnes
    rw [aluNot, hxor]

/-- Settles O46: ROR is the shift in which the source's own bit 0 enters at the top. -/
theorem rorRotatesAndClearsCarry : Obligations.RorRotatesAndClearsCarry :=
  unaryOp_of_aluUnary 1 (fun _ _ _ => rfl) fun v _ => by rw [aluRor, shiftRightWith_bit_zero]

/-- Settles O47: SHR is the shift in which 0 enters at the top. -/
theorem shrShiftsBitZeroIntoCarry : Obligations.ShrShiftsBitZeroIntoCarry :=
  unaryOp_of_aluUnary 2 (fun _ _ _ => rfl) fun v _ => by rw [aluShr, shiftRightWith_false]

/-- Settles O48: RCR is the shift in which the old carry enters at the top. -/
theorem rcrRotatesThroughCarry : Obligations.RcrRotatesThroughCarry :=
  unaryOp_of_aluUnary 3 (fun _ _ _ => rfl) fun v cin => by rw [aluRcr, shiftRightWith_eq_or]

end Sys2Proof.Machine

/-! PROOFS. The encoding (30_encoding.md): every word is the join of its fields, the decoder reads the fields the encoder joined, and
the encoder joins the fields the decoder read. -/

namespace Sys2Proof

/-! ### A word as the join of its fields -/

/-- The fields `ooooo ddd i xxx r yyy` that the forms without an 8-bit immediate are cut into. -/
def joinFields (op : BitVec 5) (d : BitVec 3) (i : BitVec 1) (x : BitVec 3) (r : BitVec 1) (y : BitVec 3) : Word :=
  op ++ d ++ i ++ x ++ r ++ y

/-- The fields `ooooo ddd` and an immediate byte. -/
def joinByte (op : BitVec 5) (d : BitVec 3) (imm : Byte) : Word := op ++ d ++ imm

theorem bit_eq_zero {b : BitVec 1} (h : b ≠ 1) : b = 0 := by decide +revert

theorem bit_eq_one {b : BitVec 1} (h : b ≠ 0) : b = 1 := by decide +revert

theorem field_and (w m : Word) (lo len : Nat) : field (w &&& m) lo len = field w lo len &&& field m lo len := by
  unfold field
  ext i hi
  simp

/-- Each field of a join is the piece joined there: drop the pieces below it, and it is the lowest of what is left. -/
@[simp] theorem field_joinFields (op : BitVec 5) (d : BitVec 3) (i : BitVec 1) (x : BitVec 3) (r : BitVec 1) (y : BitVec 3) :
    field (joinFields op d i x r y) 11 5 = op ∧ field (joinFields op d i x r y) 8 3 = d ∧
      field (joinFields op d i x r y) 7 1 = i ∧ field (joinFields op d i x r y) 4 3 = x ∧
      field (joinFields op d i x r y) 3 1 = r ∧ field (joinFields op d i x r y) 0 3 = y := by
  unfold joinFields field
  refine ⟨?op, ?d, ?i, ?x, ?r, ?y⟩ <;> repeat rw [BitVec.extractLsb'_append_eq_of_le (by decide)]
  case op => exact BitVec.extractLsb'_eq_self
  all_goals exact BitVec.extractLsb'_append_eq_right

@[simp] theorem field_joinByte (op : BitVec 5) (d : BitVec 3) (imm : Byte) :
    field (joinByte op d imm) 11 5 = op ∧ field (joinByte op d imm) 8 3 = d ∧ field (joinByte op d imm) 0 8 = imm :=
  ⟨(field_high (op ++ d) imm 3 5).trans BitVec.extractLsb'_append_eq_left,
    (field_high (op ++ d) imm 0 3).trans BitVec.extractLsb'_append_eq_right, field_low (op ++ d) imm⟩

theorem joinFields_field (w : Word) :
    joinFields (field w 11 5) (field w 8 3) (field w 7 1) (field w 4 3) (field w 3 1) (field w 0 3) = w := by
  apply BitVec.eq_of_getLsbD_eq
  intro n hn
  unfold joinFields field
  rw [BitVec.getLsbD_append]
  simp only [BitVec.getLsbD_append]
  interval_cases n <;> simp

theorem joinByte_field (w : Word) : joinByte (field w 11 5) (field w 8 3) (field w 0 8) = w := by
  apply BitVec.eq_of_getLsbD_eq
  intro n hn
  unfold joinByte field
  rw [BitVec.getLsbD_append, BitVec.getLsbD_append]
  interval_cases n <;> simp

/-- A mask written as a join acts field by field. -/
theorem and_joinFields (w : Word) (op : BitVec 5) (d : BitVec 3) (i : BitVec 1) (x : BitVec 3) (r : BitVec 1) (y : BitVec 3) :
    w &&& joinFields op d i x r y = joinFields (field w 11 5 &&& op) (field w 8 3 &&& d) (field w 7 1 &&& i)
      (field w 4 3 &&& x) (field w 3 1 &&& r) (field w 0 3 &&& y) := by
  rw [← joinFields_field (w &&& _)]
  simp [field_and]

/-! ### The forms of a canonical word -/

theorem encode_nop : encode .nop = joinFields 0 0 0 0 0 0 := rfl

theorem encode_halt : encode .halt = joinFields 2 0 0 0 0 0 := rfl

theorem encode_mov (gd gs : Reg) : encode (.mov gd gs) = joinFields 3 gd.code 0 gs.code 0 0 :=
  (BitVec.append_assoc (x₂ := 0#1) (x₃ := 0#3)).symm

theorem append_zeros (hi : Byte) : hi ++ 0#1 ++ 0#3 ++ 0#1 = hi ++ 0#5 := by
  rw [BitVec.append_assoc, BitVec.append_assoc]; rfl

theorem encode_load (gd : Reg) (p : Ptr) : encode (.load gd p) = joinFields 5 gd.code 0 0 0 p.reg.code :=
  congrArg (fun hi : BitVec 13 => hi ++ p.reg.code) (append_zeros _).symm

theorem encode_store (gs : Reg) (p : Ptr) : encode (.store gs p) = joinFields 7 gs.code 0 0 0 p.reg.code :=
  congrArg (fun hi : BitVec 13 => hi ++ p.reg.code) (append_zeros _).symm

theorem encode_loadImm (gd : Reg) (imm : Byte) : encode (.loadImm gd imm) = joinByte 4 gd.code imm := rfl

theorem encode_storeImm (gs : Reg) (imm : Byte) : encode (.storeImm gs imm) = joinByte 6 gs.code imm := rfl

theorem encodeUnary_eq (u : BitVec 2) (gd : Dest) (gs : Reg) :
    encodeUnary u gd gs = joinFields 15 gd.code 0 gs.code gd.writeBack (u ++ 0#1) := BitVec.append_assoc

/-- The opcode field of a word of the conditional group: bit 15, the condition and bit 11. -/
def condOpcode (c : BitVec 3) (k : BitVec 1) : BitVec 5 := 1#1 ++ c ++ k

theorem le_condOpcode : ∀ (c : BitVec 3) (k : BitVec 1), 16 ≤ (condOpcode c k).toNat := by decide

theorem extractLsb'_condOpcode : ∀ (c : BitVec 3) (k : BitVec 1),
    (condOpcode c k).extractLsb' 4 1 = 1 ∧ (condOpcode c k).extractLsb' 1 3 = c ∧ (condOpcode c k).extractLsb' 0 1 = k := by
  decide

theorem encode_movi (cond : Cond) (gd : Reg) (imm : Byte) :
    encode (.movi cond gd imm) = joinByte (condOpcode cond.code 0) gd.code imm := rfl

theorem encode_jmp (cond : Cond) (imm : Byte) : encode (.jmp cond imm) = joinByte (condOpcode cond.code 0) 7 imm := by
  cases cond <;> rfl

theorem encode_call (cond : Cond) (imm : Byte) : encode (.call cond imm) = joinByte (condOpcode cond.code 1) 7 imm := by
  cases cond <;> rfl

/-! ### The seven binary operations -/

/-- The binary ALU operations (30_encoding.md R57). -/
inductive Binary where
  | adc | add | sbc | sub | and | or | xor

namespace Binary

/-- `bbb` -/
def code : Binary → BitVec 3
  | adc => 0
  | add => 1
  | sbc => 2
  | sub => 3
  | and => 4
  | or => 5
  | xor => 6

/-- The opcode bits[15:11], `01bbb`. -/
def opcode (b : Binary) : BitVec 5 := 0b01#2 ++ b.code

def regInstr : Binary → Dest → Reg → Reg → Instr
  | adc => .adcReg
  | add => .addReg
  | sbc => .sbcReg
  | sub => .subReg
  | and => .andReg
  | or => .orReg
  | xor => .xorReg

def immInstr : Binary → Dest → Reg → BitVec 3 → Instr
  | adc => .adcImm
  | add => .addImm
  | sbc => .sbcImm
  | sub => .subImm
  | and => .andImm
  | or => .orImm
  | xor => .xorImm

theorem encode_regInstr (b : Binary) (gd : Dest) (x y : Reg) :
    encode (b.regInstr gd x y) = joinFields b.opcode gd.code 0 x.code gd.writeBack y.code := by cases b <;> rfl

theorem encode_immInstr (b : Binary) (gd : Dest) (x : Reg) (imm : BitVec 3) :
    encode (b.immInstr gd x imm) = joinFields b.opcode gd.code 1 x.code gd.writeBack imm := by cases b <;> rfl

end Binary

theorem encode_unaryInstr (u : BitVec 2) (gd : Dest) (gs : Reg) :
    encode (unaryInstr u gd gs) = joinFields 15 gd.code 0 gs.code gd.writeBack (u ++ 0#1) := by
  rw [← encodeUnary_eq]
  match u with
  | 0 | 1 | 2 | 3 => rfl

/-- An instruction by its form: the fourteen binary instructions and the four unary ones are one case each. -/
theorem Instr.casesByForm {P : Instr → Prop} (nop : P .nop) (halt : P .halt) (mov : ∀ gd gs, P (.mov gd gs))
    (loadImm : ∀ gd imm, P (.loadImm gd imm)) (load : ∀ gd p, P (.load gd p))
    (storeImm : ∀ gs imm, P (.storeImm gs imm)) (store : ∀ gs p, P (.store gs p))
    (binaryReg : ∀ (b : Binary) (gd x y), P (b.regInstr gd x y))
    (binaryImm : ∀ (b : Binary) (gd x imm), P (b.immInstr gd x imm)) (unary : ∀ u gd gs, P (unaryInstr u gd gs))
    (movi : ∀ cond gd imm, P (.movi cond gd imm)) (jmp : ∀ cond imm, P (.jmp cond imm))
    (call : ∀ cond imm, P (.call cond imm)) (i : Instr) : P i := by
  cases i with
  | nop => exact nop
  | halt => exact halt
  | mov => exact mov _ _
  | loadImm => exact loadImm _ _
  | load => exact load _ _
  | storeImm => exact storeImm _ _
  | store => exact store _ _
  | adcReg => exact binaryReg .adc _ _ _
  | addReg => exact binaryReg .add _ _ _
  | sbcReg => exact binaryReg .sbc _ _ _
  | subReg => exact binaryReg .sub _ _ _
  | andReg => exact binaryReg .and _ _ _
  | orReg => exact binaryReg .or _ _ _
  | xorReg => exact binaryReg .xor _ _ _
  | adcImm => exact binaryImm .adc _ _ _
  | addImm => exact binaryImm .add _ _ _
  | sbcImm => exact binaryImm .sbc _ _ _
  | subImm => exact binaryImm .sub _ _ _
  | andImm => exact binaryImm .and _ _ _
  | orImm => exact binaryImm .or _ _ _
  | xorImm => exact binaryImm .xor _ _ _
  | not => exact unary 0 _ _
  | ror => exact unary 1 _ _
  | shr => exact unary 2 _ _
  | rcr => exact unary 3 _ _
  | movi => exact movi _ _ _
  | jmp => exact jmp _ _
  | call => exact call _ _

/-! ### The decoder by the opcode -/

/-- The groups of opcodes the decoder tells apart (30_encoding.md R62). -/
theorem opcode_cases (op : BitVec 5) :
    op = 0 ∨ op = 1 ∨ op = 2 ∨ op = 3 ∨ op = 4 ∨ op = 5 ∨ op = 6 ∨ op = 7 ∨
      (∃ b ∈ [Binary.adc, .add, .sbc, .sub, .and, .or, .xor], op = b.opcode) ∨ op = 15 ∨
      ∃ c k, op = condOpcode c k := by
  revert op; decide

/-- A word of a pointer form, LOAD or STORE (30_encoding.md R54). -/
def decodePtr (mk : Ptr → Instr) (w : Word) : Except EncodingReject Instr :=
  match Ptr.ofCode (field w 0 3) with
  | none => .error .pointerCode
  | some p => .ok (mk p)

theorem decodePtr_eq_ok {mk : Ptr → Instr} {w : Word} {i : Instr} (h : decodePtr mk w = .ok i) :
    ∃ p, Ptr.ofCode (field w 0 3) = some p ∧ i = mk p := by
  unfold decodePtr at h
  split at h <;> cases h
  exact ⟨_, ‹_›, rfl⟩

section equations
variable {dc : DontCare} {w : Word}

theorem decode_of_opcode_nop (h : field w 11 5 = 0) : decode dc w = checkDashes dc 0x07FF w (.ok .nop) := by
  simp [decode, h]

theorem decode_of_opcode_one (h : field w 11 5 = 1) : decode dc w = .error .unassignedEncoding := by
  simp [decode, h]

theorem decode_of_opcode_halt (h : field w 11 5 = 2) : decode dc w = checkDashes dc 0x07FF w (.ok .halt) := by
  simp [decode, h]

theorem decode_of_opcode_mov (h : field w 11 5 = 3) : decode dc w =
    checkDashes dc 0x008F w (.ok (.mov (Reg.ofCode (field w 8 3)) (Reg.ofCode (field w 4 3)))) := by
  simp [decode, h]

theorem decode_of_opcode_loadImm (h : field w 11 5 = 4) :
    decode dc w = .ok (.loadImm (Reg.ofCode (field w 8 3)) (field w 0 8)) := by
  simp [decode, h]

theorem decode_of_opcode_load (h : field w 11 5 = 5) :
    decode dc w = checkDashes dc 0x00F8 w (decodePtr (.load (Reg.ofCode (field w 8 3))) w) := by
  rw [decode, h]; rfl

theorem decode_of_opcode_storeImm (h : field w 11 5 = 6) :
    decode dc w = .ok (.storeImm (Reg.ofCode (field w 8 3)) (field w 0 8)) := by
  simp [decode, h]

theorem decode_of_opcode_store (h : field w 11 5 = 7) :
    decode dc w = checkDashes dc 0x00F8 w (decodePtr (.store (Reg.ofCode (field w 8 3))) w) := by
  rw [decode, h]; rfl

theorem decode_of_opcode_binary {b : Binary} (h : field w 11 5 = b.opcode) :
    decode dc w = decodeBinary b.regInstr b.immInstr w := by
  cases b <;> simp [decode, h] <;> rfl

theorem decode_of_opcode_cond {c : BitVec 3} {k : BitVec 1} (h : field w 11 5 = condOpcode c k) :
    decode dc w = decodeConditional w := by
  have hle : 16 ≤ (field w 11 5).toNat := h ▸ le_condOpcode c k
  unfold decode
  split <;> first | rfl | omega

end equations

@[simp] theorem checkDashes_ignore (dashes w : Word) (r : Except EncodingReject Instr) :
    checkDashes .ignore dashes w r = r := rfl

@[simp] theorem checkDashes_zero (dc : DontCare) (w : Word) (r : Except EncodingReject Instr) :
    checkDashes dc 0#16 w r = r := by
  cases dc <;> simp [checkDashes]

theorem field_of_opcode_cond {w : Word} {c : BitVec 3} {k : BitVec 1} (hop : field w 11 5 = condOpcode c k) :
    field w 12 3 = c ∧ field w 11 1 = k := by
  obtain ⟨-, hc, hk⟩ := extractLsb'_condOpcode c k
  rw [← field_field w 11 5 1 3 (by decide), ← field_field w 11 5 0 1 (by decide), hop]
  exact ⟨hc, hk⟩

/-! ### Decoding what was encoded -/

@[simp] theorem aluDest_joinFields (op : BitVec 5) (gd : Dest) (i : BitVec 1) (x y : BitVec 3) :
    aluDest (joinFields op gd.code i x gd.writeBack y) = gd := by
  cases gd <;> simp [aluDest, Dest.writeBack, Dest.code]

theorem decode_encode_binaryReg (b : Binary) (gd : Dest) (x y : Reg) :
    decode .ignore (encode (b.regInstr gd x y)) = .ok (b.regInstr gd x y) := by
  rw [b.encode_regInstr, decode_of_opcode_binary (b := b) (by simp)]
  simp [decodeBinary]

theorem decode_encode_binaryImm (b : Binary) (gd : Dest) (x : Reg) (imm : BitVec 3) :
    decode .ignore (encode (b.immInstr gd x imm)) = .ok (b.immInstr gd x imm) := by
  rw [b.encode_immInstr, decode_of_opcode_binary (b := b) (by simp)]
  simp [decodeBinary]

theorem decode_encode_unary (u : BitVec 2) (gd : Dest) (gs : Reg) :
    decode .ignore (encode (unaryInstr u gd gs)) = .ok (unaryInstr u gd gs) := by
  have hy : field (encode (unaryInstr u gd gs)) 0 3 = u ++ 0#1 := by simp [encode_unaryInstr]
  have hbit : field (encode (unaryInstr u gd gs)) 0 1 = 0 := by
    rw [← field_field _ 0 3 0 1 (by decide), hy]; exact BitVec.extractLsb'_append_eq_right
  have hu : field (encode (unaryInstr u gd gs)) 1 2 = u := by
    rw [← field_field _ 0 3 1 2 (by decide), hy]; exact BitVec.extractLsb'_append_eq_left
  rw [decode_of_opcode_unary (by simp [encode_unaryInstr]), decodeUnary_ignore hbit, hu]
  simp [encode_unaryInstr]

@[simp] theorem field_joinByte_cond (c : BitVec 3) (k : BitVec 1) (d : BitVec 3) (imm : Byte) :
    field (joinByte (condOpcode c k) d imm) 12 3 = c ∧ field (joinByte (condOpcode c k) d imm) 11 1 = k :=
  field_of_opcode_cond (by simp)

theorem decode_joinByte_cond {dc : DontCare} (c : BitVec 3) (k : BitVec 1) (d : BitVec 3) (imm : Byte) :
    decode dc (joinByte (condOpcode c k) d imm) = decodeConditional (joinByte (condOpcode c k) d imm) :=
  decode_of_opcode_cond (c := c) (k := k) (by simp)

theorem decode_ignore_encode {i : Instr} (h : i.wellFormed = true) : decode .ignore (encode i) = .ok i := by
  cases i using Instr.casesByForm with
  | nop | halt => rfl
  | mov => rw [encode_mov, decode_of_opcode_mov (by simp)]; simp
  | loadImm => rw [encode_loadImm, decode_of_opcode_loadImm (by simp)]; simp
  | load => rw [encode_load, decode_of_opcode_load (by simp)]; simp [decodePtr]
  | storeImm => rw [encode_storeImm, decode_of_opcode_storeImm (by simp)]; simp
  | store => rw [encode_store, decode_of_opcode_store (by simp)]; simp [decodePtr]
  | binaryReg => exact decode_encode_binaryReg _ _ _ _
  | binaryImm => exact decode_encode_binaryImm _ _ _ _
  | unary => exact decode_encode_unary _ _ _
  | movi => simpa [encode_movi, decode_joinByte_cond, decodeConditional, Instr.wellFormed] using h
  | jmp => simp [encode_jmp, decode_joinByte_cond, decodeConditional, Reg.ofCode]
  | call => simp [encode_call, decode_joinByte_cond, decodeConditional, Reg.ofCode]

/-! ### The ignored bits of each form (30_encoding.md R53, R65) -/

/-- The bits that take part in the meaning: all but the `-` bits, and for destination `F` all but d. -/
def Instr.usedBits (i : Instr) : Word := ~~~(i.dashBits ||| if i.discards then 0x0700 else 0x0000)

/-- `ddd` takes part where the destination is a register. -/
def Dest.usedBits : Dest → BitVec 3
  | .f => 0
  | .g _ => 7

theorem usedBits_of_dest {i : Instr} {gd : Dest} {dash : BitVec 1} (hdash : i.dashBits = joinFields 0 0 dash 0 0 0)
    (hdisc : i.discards = (gd == .f)) : i.usedBits = joinFields 31 gd.usedBits (~~~dash) 7 1 7 := by
  have hbits : ∀ dash : BitVec 1, ~~~(joinFields 0 0 dash 0 0 0 ||| 0x0700) = joinFields 31 0 (~~~dash) 7 1 7 ∧
      ~~~(joinFields 0 0 dash 0 0 0 ||| 0x0000) = joinFields 31 7 (~~~dash) 7 1 7 := by decide
  rw [Instr.usedBits, hdash, hdisc]
  cases gd with
  | f => exact (hbits dash).1
  | g => exact (hbits dash).2

theorem usedBits_of_dashBits {i : Instr} {m : Word} (hdash : i.dashBits = ~~~m) (hdisc : i.discards = false) :
    i.usedBits = m := by
  simp [Instr.usedBits, hdash, hdisc]

@[simp] theorem and_seven (x : BitVec 3) : x &&& 7#3 = x := BitVec.and_allOnes
@[simp] theorem and_one (x : BitVec 1) : x &&& 1#1 = x := BitVec.and_allOnes
@[simp] theorem and_thirtyOne (x : BitVec 5) : x &&& 31#5 = x := BitVec.and_allOnes

theorem aluDest_writeBack (w : Word) : (aluDest w).writeBack = field w 3 1 := by
  unfold aluDest
  split
  case isTrue h => rw [h]; rfl
  case isFalse h => rw [bit_eq_zero h]; rfl

theorem aluDest_code (w : Word) : (aluDest w).code = field w 8 3 &&& (aluDest w).usedBits := by
  unfold aluDest
  split <;> simp [Dest.code, Dest.usedBits, Reg.code_ofCode]

/-- What an ALU word with destination `gd` keeps of a word: its canonical word. -/
theorem and_usedBits_alu {w : Word} {i : Instr} {dash : BitVec 1} (hdisc : i.discards = (aluDest w == .f))
    (hdash : i.dashBits = joinFields 0 0 dash 0 0 0) :
    w &&& i.usedBits = joinFields (field w 11 5) (aluDest w).code (field w 7 1 &&& ~~~dash) (field w 4 3)
      (aluDest w).writeBack (field w 0 3) := by
  simp [usedBits_of_dest hdash hdisc, and_joinFields, aluDest_code, aluDest_writeBack]

theorem encode_of_decodeBinary {b : Binary} {w : Word} {i : Instr} (hop : field w 11 5 = b.opcode)
    (h : decodeBinary b.regInstr b.immInstr w = .ok i) : encode i = w &&& i.usedBits := by
  unfold decodeBinary at h
  split at h <;> cases h
  case isTrue hi =>
    rw [and_usedBits_alu (dash := 0) (by cases b <;> rfl) (by cases b <;> rfl), b.encode_immInstr]
    simp [hop, hi, Reg.code_ofCode]
  case isFalse hi =>
    rw [and_usedBits_alu (dash := 0) (by cases b <;> rfl) (by cases b <;> rfl), b.encode_regInstr]
    simp [hop, bit_eq_zero hi, Reg.code_ofCode]

theorem dashBits_unaryInstr (u : BitVec 2) (gd : Dest) (gs : Reg) : (unaryInstr u gd gs).dashBits = 0x0080 := by
  match u with
  | 0 | 1 | 2 | 3 => rfl

theorem discards_unaryInstr (u : BitVec 2) (gd : Dest) (gs : Reg) : (unaryInstr u gd gs).discards = (gd == .f) := by
  match u with
  | 0 | 1 | 2 | 3 => rfl

theorem encode_of_decodeUnary {dc : DontCare} {w : Word} {i : Instr} (hop : field w 11 5 = 15)
    (h : decodeUnary dc w = .ok i) : encode i = w &&& i.usedBits := by
  obtain ⟨hbit, rfl⟩ := decodeUnary_eq_ok h
  have hjoin : ∀ y : BitVec 3, y.extractLsb' 0 1 = 0 → y.extractLsb' 1 2 ++ 0#1 = y := by decide
  have hy : field w 1 2 ++ 0#1 = field w 0 3 := by
    rw [← field_field w 0 3 0 1 (by decide)] at hbit
    rw [← field_field w 0 3 1 2 (by decide)]
    exact hjoin _ hbit
  generalize field w 1 2 = u at hy ⊢
  rw [and_usedBits_alu (dash := 1) (discards_unaryInstr _ _ _) (dashBits_unaryInstr _ _ _), encode_unaryInstr, hy]
  simp [hop, Reg.code_ofCode]

/-- A decoded word of the conditional group is a MOVI to a register other than PC, a JMP or a CALL. -/
theorem decodeConditional_eq_ok {w : Word} {i : Instr} (h : decodeConditional w = .ok i) :
    (∃ cond gd imm, gd ≠ .pc ∧ i = .movi cond gd imm) ∨ (∃ cond imm, i = .jmp cond imm) ∨ ∃ cond imm, i = .call cond imm := by
  unfold decodeConditional at h
  split at h
  · cases h
  · dsimp only at h
    split at h <;> split at h <;> cases h
    · exact .inr (.inl ⟨_, _, rfl⟩)
    · exact .inl ⟨_, _, _, ‹_›, rfl⟩
    · exact .inr (.inr ⟨_, _, rfl⟩)

theorem usedBits_of_decodeConditional {w : Word} {i : Instr} (h : decodeConditional w = .ok i) :
    i.usedBits = BitVec.allOnes 16 := by
  obtain ⟨_, _, _, -, rfl⟩ | ⟨_, _, rfl⟩ | ⟨_, _, rfl⟩ := decodeConditional_eq_ok h
  all_goals exact usedBits_of_dashBits rfl rfl

theorem encode_of_decodeConditional {w : Word} {i : Instr} {c : BitVec 3} {k : BitVec 1}
    (hop : field w 11 5 = condOpcode c k) (h : decodeConditional w = .ok i) : encode i = w := by
  have hpc : Reg.ofCode (field w 8 3) = .pc → field w 8 3 = 7 := fun h => by rw [← Reg.code_ofCode (field w 8 3), h]; rfl
  obtain ⟨hc, hk⟩ := field_of_opcode_cond hop
  rw [decodeConditional, hc, hk] at h
  conv => rhs; rw [← joinByte_field w, hop]
  split at h
  · cases h
  · next cond hcond =>
    rw [← Cond.code_of_ofCode _ _ hcond]
    dsimp only at h
    split at h <;> split at h <;> cases h
    · next hk hd => rw [encode_jmp, hk, hpc hd]
    · next hk hd => rw [encode_movi, hk, Reg.code_ofCode]
    · next hk hd => rw [encode_call, bit_eq_one hk, hpc hd]

/-- The immediate forms, LOAD and STORE. -/
theorem joinByte_of_opcode {w : Word} {op : BitVec 5} (hop : field w 11 5 = op) :
    joinByte op (Reg.ofCode (field w 8 3)).code (field w 0 8) = w := by
  rw [Reg.code_ofCode, ← hop, joinByte_field]

/-- The pointer forms, LOAD and STORE. -/
theorem joinFields_of_ptr {w : Word} {op : BitVec 5} {p : Ptr} (hop : field w 11 5 = op)
    (hp : Ptr.ofCode (field w 0 3) = some p) :
    joinFields op (Reg.ofCode (field w 8 3)).code 0 0 0 p.reg.code = w &&& joinFields 31 7 0 0 0 7 := by
  rw [and_joinFields, hop, Reg.code_ofCode, Ptr.code_of_ofCode _ _ hp]
  simp

/-- Encoding what a word decodes to keeps the bits that take part, and clears the others. -/
theorem encode_of_decode {dc : DontCare} {w : Word} {i : Instr} (h : decode dc w = .ok i) : encode i = w &&& i.usedBits := by
  obtain hop | hop | hop | hop | hop | hop | hop | hop | ⟨b, -, hop⟩ | hop | ⟨c, k, hop⟩ := opcode_cases (field w 11 5)
  · cases checkDashes_eq_ok (decode_of_opcode_nop hop ▸ h)
    rw [usedBits_of_dashBits (m := joinFields 31 0 0 0 0 0) rfl rfl, and_joinFields, encode_nop, hop]
    simp
  · simp [decode_of_opcode_one hop] at h
  · cases checkDashes_eq_ok (decode_of_opcode_halt hop ▸ h)
    rw [usedBits_of_dashBits (m := joinFields 31 0 0 0 0 0) rfl rfl, and_joinFields, encode_halt, hop]
    simp
  · cases checkDashes_eq_ok (decode_of_opcode_mov hop ▸ h)
    rw [usedBits_of_dashBits (m := joinFields 31 7 0 7 0 0) rfl rfl, and_joinFields, encode_mov, hop]
    simp [Reg.code_ofCode]
  · cases (decode_of_opcode_loadImm hop).symm.trans h
    rw [usedBits_of_dashBits (m := BitVec.allOnes 16) rfl rfl, BitVec.and_allOnes, encode_loadImm, joinByte_of_opcode hop]
  · obtain ⟨p, hp, rfl⟩ := decodePtr_eq_ok (checkDashes_eq_ok (decode_of_opcode_load hop ▸ h))
    rw [usedBits_of_dashBits (m := joinFields 31 7 0 0 0 7) rfl rfl, encode_load, joinFields_of_ptr hop hp]
  · cases (decode_of_opcode_storeImm hop).symm.trans h
    rw [usedBits_of_dashBits (m := BitVec.allOnes 16) rfl rfl, BitVec.and_allOnes, encode_storeImm, joinByte_of_opcode hop]
  · obtain ⟨p, hp, rfl⟩ := decodePtr_eq_ok (checkDashes_eq_ok (decode_of_opcode_store hop ▸ h))
    rw [usedBits_of_dashBits (m := joinFields 31 7 0 0 0 7) rfl rfl, encode_store, joinFields_of_ptr hop hp]
  · exact encode_of_decodeBinary hop (decode_of_opcode_binary hop ▸ h)
  · exact encode_of_decodeUnary hop (decode_of_opcode_unary hop ▸ h)
  · rw [decode_of_opcode_cond hop] at h
    rw [encode_of_decodeConditional hop h, usedBits_of_decodeConditional h, BitVec.and_allOnes]

/-- Settles O15: form by form, the encoder joins the fields the decoder has read. -/
theorem encodeOfDecodeIsTheWord : Obligations.EncodeOfDecodeIsTheWord := fun _ _ => encode_of_decode

/-! ### The rows of the opcode table -/

theorem tableRow_of_encode (i : Instr) : encode i &&& i.tableRow.1 = i.tableRow.2 := by
  open Laws.TableRow in
  cases i with
  | nop => exact nop
  | halt => exact halt
  | mov => exact mov _ _
  | loadImm => exact loadImm _ _
  | load => exact load _ _
  | storeImm => exact storeImm _ _
  | store => exact store _ _
  | adcReg | addReg | sbcReg | subReg | andReg | orReg | xorReg => exact (binary_row _ _ _ _ _ _).trans rfl
  | adcImm | addImm | sbcImm | subImm | andImm | orImm | xorImm => exact (binary_row _ _ _ _ _ _).trans rfl
  | not => exact not _ _
  | ror => exact ror _ _
  | shr => exact shr _ _
  | rcr => exact rcr _ _
  | movi => exact movi _ _ _
  | jmp => exact jmp _ _
  | call => exact call _ _

theorem not_and_eq_right {a m : Word} (h : a &&& m = 0) : ~~~a &&& m = m := by
  ext n hn
  have hbit := congrArg (·[n]) h
  revert hbit
  cases ha : a[n] <;> simp [ha]

/-- The mask of a row looks only at bits that take part. -/
theorem usedBits_and_mask (i : Instr) : i.usedBits &&& i.tableRow.1 = i.tableRow.1 := by
  have hdash : i.dashBits &&& i.tableRow.1 = 0 := by cases i <;> simp [Instr.dashBits, Instr.tableRow]
  have hd : i.discards = true → 0x0700 &&& i.tableRow.1 = 0 := by
    cases i <;> simp [Instr.discards, Instr.tableRow]
  apply not_and_eq_right
  split
  case isTrue h => rw [BitVec.and_or_distrib_right, hdash, hd h]; rfl
  case isFalse => simpa using hdash

/-- Only the conditional group has MOVI words, and there destination PC is JMP (30_encoding.md R59). -/
theorem decode_wellFormed {dc : DontCare} {w : Word} {i : Instr} (h : decode dc w = .ok i) : i.wellFormed = true := by
  cases i with
  | movi =>
    have hcond : ∀ op : BitVec 5, op &&& 17 = 16 → ∃ c k, op = condOpcode c k := by decide
    have hop : field w 11 5 &&& 17 = 16 := by simpa [Instr.HasOpcode, Instr.tableRow, field] using decode_hasOpcode h
    obtain ⟨c, k, hop⟩ := hcond _ hop
    have hforms := decodeConditional_eq_ok (decode_of_opcode_cond hop ▸ h)
    simpa [Instr.wellFormed] using hforms
  | _ => rfl

/-- Settles O16: the mask of the row looks at bits that decoding and encoding keep, and the canonical word lies in the row. -/
theorem decodedWordLiesInItsTableRow : Obligations.DecodedWordLiesInItsTableRow := by
  intro w i h
  refine ⟨?_, decode_wellFormed h⟩
  rw [← tableRow_of_encode i, encode_of_decode h, BitVec.and_assoc, usedBits_and_mask]

/-! ### The `-` bits under must_be_zero -/

/-- The `-` bits of a word: those of its form, and the only thing DONT_CARE decides about. -/
def HasDashes (w dash : Word) : Prop :=
  (∀ dc, decode dc w = checkDashes dc dash w (decode .ignore w)) ∧ ∀ i, decode .ignore w = .ok i → i.dashBits = dash

theorem exists_hasDashes_of_eq {w : Word} (dash : Word) (r : Except EncodingReject Instr)
    (h : ∀ dc, decode dc w = checkDashes dc dash w r) (hr : ∀ i, r = .ok i → i.dashBits = dash) :
    ∃ dash, HasDashes w dash := by
  have hr' : decode .ignore w = r := h .ignore
  exact ⟨dash, fun dc => hr' ▸ h dc, hr' ▸ hr⟩

theorem exists_hasDashes (w : Word) : ∃ dash, HasDashes w dash := by
  obtain hop | hop | hop | hop | hop | hop | hop | hop | ⟨b, -, hop⟩ | hop | ⟨c, k, hop⟩ := opcode_cases (field w 11 5)
  · exact exists_hasDashes_of_eq 0x07FF _ (fun _ => decode_of_opcode_nop hop) (by rintro _ ⟨⟩; rfl)
  · exact exists_hasDashes_of_eq 0 _ (fun _ => (decode_of_opcode_one hop).trans (checkDashes_zero _ _ _).symm) (by rintro _ ⟨⟩)
  · exact exists_hasDashes_of_eq 0x07FF _ (fun _ => decode_of_opcode_halt hop) (by rintro _ ⟨⟩; rfl)
  · exact exists_hasDashes_of_eq 0x008F _ (fun _ => decode_of_opcode_mov hop) (by rintro _ ⟨⟩; rfl)
  · exact exists_hasDashes_of_eq 0 _ (fun _ => (decode_of_opcode_loadImm hop).trans (checkDashes_zero _ _ _).symm)
      (by rintro _ ⟨⟩; rfl)
  · refine exists_hasDashes_of_eq 0x00F8 _ (fun _ => decode_of_opcode_load hop) fun i hi => ?_
    obtain ⟨p, -, rfl⟩ := decodePtr_eq_ok hi
    rfl
  · exact exists_hasDashes_of_eq 0 _ (fun _ => (decode_of_opcode_storeImm hop).trans (checkDashes_zero _ _ _).symm)
      (by rintro _ ⟨⟩; rfl)
  · refine exists_hasDashes_of_eq 0x00F8 _ (fun _ => decode_of_opcode_store hop) fun i hi => ?_
    obtain ⟨p, -, rfl⟩ := decodePtr_eq_ok hi
    rfl
  · refine exists_hasDashes_of_eq 0 (decodeBinary b.regInstr b.immInstr w) (by simp [decode_of_opcode_binary hop]) fun i hi => ?_
    obtain ⟨_, _, _, rfl⟩ | ⟨_, _, _, rfl⟩ := decodeBinary_eq_ok hi <;> cases b <;> rfl
  · by_cases hbit : field w 0 1 = 1
    · exact exists_hasDashes_of_eq 0 (.error .unassignedEncoding)
        (by simp [decode_of_opcode_unary hop, decodeUnary, hbit]) (by rintro _ ⟨⟩)
    · refine exists_hasDashes_of_eq 0x0080 (.ok (unaryInstr (field w 1 2) (aluDest w) (Reg.ofCode (field w 4 3))))
        (fun dc => by rw [decode_of_opcode_unary hop, decodeUnary, if_neg hbit]; rfl) ?_
      rintro _ ⟨⟩
      exact dashBits_unaryInstr _ _ _
  · refine exists_hasDashes_of_eq 0 (decodeConditional w) (by simp [decode_of_opcode_cond hop]) fun i hi => ?_
    obtain ⟨_, _, _, -, rfl⟩ | ⟨_, _, rfl⟩ | ⟨_, _, rfl⟩ := decodeConditional_eq_ok hi <;> rfl

theorem decode_mustBeZero_of_ok {w : Word} {i : Instr} (h : decode .ignore w = .ok i) :
    decode .mustBeZero w = if w &&& i.dashBits = 0 then .ok i else .error .nonzeroDontCare := by
  obtain ⟨dash, hdec, hdash⟩ := exists_hasDashes w
  rw [hdec .mustBeZero, hdash i h, h]
  rfl

/-- Settles O18: the check of the `-` bits is all that must_be_zero adds. -/
theorem mustBeZeroRefusesDashBits : Obligations.MustBeZeroRefusesDashBits := by
  refine ⟨fun w i h => decode_mustBeZero_of_ok h, fun w r h => ?_⟩
  obtain ⟨dash, hdec, -⟩ := exists_hasDashes w
  rw [hdec .mustBeZero, h, checkDashes]
  split
  · exact ⟨_, rfl⟩
  · exact ⟨_, rfl⟩

/-- The canonical word has 0 in every ignored bit. -/
theorem encode_and_dashBits {i : Instr} (h : i.wellFormed = true) : encode i &&& i.dashBits = 0 := by
  have hused : encode i = encode i &&& i.usedBits := encode_of_decode (decode_ignore_encode h)
  have hdash : i.usedBits &&& i.dashBits = 0 := by
    rw [Instr.usedBits]
    ext n hn
    simp +contextual
  rw [hused, BitVec.and_assoc, hdash]
  exact BitVec.and_zero

/-- Settles O14: the decoder reads each field the encoder joined, and the `-` bits of the join are 0. -/
theorem decodeOfEncodeIsTheInstruction : Obligations.DecodeOfEncodeIsTheInstruction := by
  intro dc i h
  cases dc with
  | ignore => exact decode_ignore_encode h
  | mustBeZero => rw [decode_mustBeZero_of_ok (decode_ignore_encode h), if_pos (encode_and_dashBits h)]

/-! ### The words the decoder rejects -/

/-- The word that holds `c` in the field from bit `lo` on, and 0 elsewhere. -/
def place {len : Nat} (lo : Nat) (c : BitVec len) : Word := c.setWidth 16 <<< lo

theorem field_place {lo len : Nat} (c : BitVec len) (h : lo + len ≤ 16) : field (place lo c) lo len = c := by
  unfold field place
  ext i hi
  have hlt : lo + i < 16 := by omega
  simp [hlt, hi]

/-- The mask that covers a field says what the field holds. -/
theorem and_eq_iff_field (w : Word) (lo len : Nat) (c : BitVec len) (h : lo + len ≤ 16) :
    w &&& place lo (BitVec.allOnes len) = place lo c ↔ field w lo len = c := by
  refine ⟨fun hand => ?_, and_of_field lo len⟩
  have hmask : ∀ i < len, (place lo (BitVec.allOnes len)).getLsbD (lo + i) = true := by
    intro i hi
    have hlt : lo + i < 16 := by omega
    simp [place, hi, hlt]
  rw [field_of_and lo len hand hmask, field_place c h]

/-- A mask of two parts that do not meet says what both say. -/
theorem and_or_eq_iff {w m₁ m₂ v₁ v₂ : Word} (h₁ : (v₁ ||| v₂) &&& m₁ = v₁) (h₂ : (v₁ ||| v₂) &&& m₂ = v₂) :
    w &&& (m₁ ||| m₂) = v₁ ||| v₂ ↔ w &&& m₁ = v₁ ∧ w &&& m₂ = v₂ := by
  constructor
  · intro h
    have hpart : ∀ m, (m₁ ||| m₂) &&& m = m → w &&& m = (v₁ ||| v₂) &&& m := fun m hm => by
      rw [← h, BitVec.and_assoc, hm]
    refine ⟨(hpart m₁ ?_).trans h₁, (hpart m₂ ?_).trans h₂⟩ <;> ext n hn <;> simp +contextual
  · rintro ⟨rfl, rfl⟩
    exact BitVec.and_or_distrib_left

theorem and_eq_iff_two_fields (w : Word) (lo len : Nat) (c : BitVec len) (lo' len' : Nat) (c' : BitVec len')
    (h : lo + len ≤ 16) (h' : lo' + len' ≤ 16)
    (h₁ : (place lo c ||| place lo' c') &&& place lo (BitVec.allOnes len) = place lo c)
    (h₂ : (place lo c ||| place lo' c') &&& place lo' (BitVec.allOnes len') = place lo' c') :
    w &&& (place lo (BitVec.allOnes len) ||| place lo' (BitVec.allOnes len')) = place lo c ||| place lo' c' ↔
      field w lo len = c ∧ field w lo' len' = c' :=
  (and_or_eq_iff h₁ h₂).trans (and_congr (and_eq_iff_field w lo len c h) (and_eq_iff_field w lo' len' c' h'))

/-! The masks of 30_encoding.md section 3, said of the fields they fix. -/

section listed
variable (w : Word)

theorem and_opcode_one_iff : w &&& 0xF800 = 0x0800 ↔ field w 11 5 = 1 :=
  and_eq_iff_field w 11 5 1 (by decide)

theorem and_unary_odd_iff : w &&& 0xF801 = 0x7801 ↔ field w 11 5 = 15 ∧ field w 0 1 = 1 :=
  and_eq_iff_two_fields w 11 5 15 0 1 1 (by decide) (by decide) (by decide) (by decide)

theorem and_cond_bit_iff : w &&& 0x8800 = 0x8800 ↔ field w 15 1 = 1 ∧ field w 11 1 = 1 :=
  and_eq_iff_two_fields w 15 1 1 11 1 1 (by decide) (by decide) (by decide) (by decide)

theorem and_d_iff : w &&& 0x0700 = 0x0700 ↔ field w 8 3 = 7 :=
  and_eq_iff_field w 8 3 7 (by decide)

theorem and_cond_iff : w &&& 0x7000 = 0x7000 ↔ field w 12 3 = 7 :=
  and_eq_iff_field w 12 3 7 (by decide)

theorem and_cond111_iff : w &&& 0xF000 = 0xF000 ↔ field w 15 1 = 1 ∧ field w 12 3 = 7 :=
  and_eq_iff_two_fields w 15 1 1 12 3 7 (by decide) (by decide) (by decide) (by decide)

theorem and_load_iff : w &&& 0xF804 = 0x2800 ↔ field w 11 5 = 5 ∧ field w 2 1 = 0 :=
  and_eq_iff_two_fields w 11 5 5 2 1 0 (by decide) (by decide) (by decide) (by decide)

theorem and_store_iff : w &&& 0xF804 = 0x3800 ↔ field w 11 5 = 7 ∧ field w 2 1 = 0 :=
  and_eq_iff_two_fields w 11 5 7 2 1 0 (by decide) (by decide) (by decide) (by decide)

/-- Bits 15, 14 to 12 and 11 are fields of the opcode. -/
theorem field_opcode : field w 15 1 = (field w 11 5).extractLsb' 4 1 ∧ field w 12 3 = (field w 11 5).extractLsb' 1 3 ∧
    field w 11 1 = (field w 11 5).extractLsb' 0 1 :=
  ⟨(field_field w 11 5 4 1 (by decide)).symm, (field_field w 11 5 1 3 (by decide)).symm,
    (field_field w 11 5 0 1 (by decide)).symm⟩

end listed

/-- A pointer code is not assigned exactly when its bit 2 is 0 (30_encoding.md R54). -/
theorem ptr_ofCode_eq_none_iff (w : Word) : Ptr.ofCode (field w 0 3) = none ↔ field w 2 1 = 0 := by
  have hcode : ∀ c : BitVec 3, Ptr.ofCode c = none ↔ c.extractLsb' 2 1 = 0 := by decide
  rw [hcode, field_field w 0 3 2 1 (by decide)]

theorem cond_ofCode_eq_none_iff (c : BitVec 3) : Cond.ofCode c = none ↔ c = 7 := by
  revert c; decide

theorem reg_ofCode_eq_pc_iff (c : BitVec 3) : Reg.ofCode c = .pc ↔ c = 7 := by
  revert c; decide

theorem condOpcode_ne : ∀ (c : BitVec 3) (k : BitVec 1),
    condOpcode c k ≠ 1 ∧ condOpcode c k ≠ 15 ∧ condOpcode c k ≠ 5 ∧ condOpcode c k ≠ 7 := by decide

/-- Settles O17: opcode by opcode, what the decoder rejects and what the listed masks say of the opcode. -/
theorem unassignedWordsAreExactlyThoseListed : Obligations.UnassignedWordsAreExactlyThoseListed := by
  intro w
  obtain ⟨htop, hcond, hlow⟩ := field_opcode w
  rw [and_opcode_one_iff, and_cond_bit_iff, Ne, and_d_iff, Ne, and_cond_iff, and_unary_odd_iff, and_cond111_iff, and_load_iff,
    and_store_iff, ← ptr_ofCode_eq_none_iff, ← reg_ofCode_eq_pc_iff, htop, hcond, hlow]
  obtain hop | hop | hop | hop | hop | hop | hop | hop | ⟨b, -, hop⟩ | hop | ⟨c, k, hop⟩ := opcode_cases (field w 11 5)
  · simp [decode_of_opcode_nop hop, hop]
  · simp [decode_of_opcode_one hop, hop]
  · simp [decode_of_opcode_halt hop, hop]
  · simp [decode_of_opcode_mov hop, hop]
  · simp [decode_of_opcode_loadImm hop, hop]
  · cases hp : Ptr.ofCode (field w 0 3) <;> simp [decode_of_opcode_load hop, decodePtr, hop, hp]
  · simp [decode_of_opcode_storeImm hop, hop]
  · cases hp : Ptr.ofCode (field w 0 3) <;> simp [decode_of_opcode_store hop, decodePtr, hop, hp]
  · have hno : ∀ e, decodeBinary b.regInstr b.immInstr w ≠ .error e := by
      intro e; unfold decodeBinary; split <;> simp
    rw [decode_of_opcode_binary hop, hop]
    cases b <;> simp [hno, Binary.opcode, Binary.code]
  · by_cases hbit : field w 0 1 = 1
    · simp [decode_of_opcode_unary hop, decodeUnary, hop, hbit]
    · have hzero : field w 0 1 = 0 := bit_eq_zero hbit
      simp [decode_of_opcode_unary hop, decodeUnary_ignore hzero, hop, hzero]
  · obtain ⟨hc, hk⟩ := field_of_opcode_cond hop
    obtain ⟨htop', hcond', hlow'⟩ := extractLsb'_condOpcode c k
    obtain ⟨h1, h15, h5, h7⟩ := condOpcode_ne c k
    rw [decode_of_opcode_cond hop, decodeConditional, hc, hk, hop, eq_false h1, eq_false h15, eq_false h5, eq_false h7,
      htop', hcond', hlow', ← cond_ofCode_eq_none_iff]
    cases Cond.ofCode c with
    | none => simp
    | some cond =>
      by_cases hk : k = 0 <;> by_cases hd : Reg.ofCode (field w 8 3) = .pc
      · simp [hk, hd]
      · simp [hk, hd]
      all_goals simp [bit_eq_one hk, hd]

/-- Settles O19: each word evaluates to its instruction or its refusal. -/
theorem wordsOfTheSpecDecode : Obligations.WordsOfTheSpecDecode :=
  ⟨rfl, rfl, rfl, rfl, rfl, rfl, rfl, rfl, rfl, rfl, rfl, rfl, rfl, rfl, rfl, rfl⟩

/-! ### The rows of NOP and of the binary operations -/

theorem and_eq_nopRow_iff (w : Word) : w &&& 0xF800 = 0x0000 ↔ decode .ignore w = .ok .nop := by
  constructor
  · intro h
    exact decode_of_opcode_nop ((and_eq_iff_field w 11 5 0 (by decide)).1 h)
  · exact fun h => (decodedWordLiesInItsTableRow w .nop h).1

namespace Binary

/-- The match of a binary operation's row, with i = bits[7]. -/
def row (b : Binary) (i : BitVec 1) : Word := joinFields b.opcode 0 i 0 0 0

/-- A binary operation's row fixes the opcode and i. -/
theorem field_of_and_row {b : Binary} {w : Word} {i : BitVec 1} (h : w &&& 0xF880 = b.row i) :
    field w 11 5 = b.opcode ∧ field w 7 1 = i := by
  rw [field_of_and 11 5 h (by decide), field_of_and 7 1 h (by decide)]
  simp [row]

theorem and_eq_regRow_iff (b : Binary) (w : Word) :
    w &&& 0xF880 = b.row 0 ↔ ∃ gd x y, decode .ignore w = .ok (b.regInstr gd x y) := by
  constructor
  · intro h
    obtain ⟨hop, hi⟩ := field_of_and_row h
    exact ⟨_, _, _, by rw [decode_of_opcode_binary hop, decodeBinary, if_neg (by simp [hi])]⟩
  · rintro ⟨gd, x, y, h⟩
    have hrow := (decodedWordLiesInItsTableRow w _ h).1
    cases b <;> exact hrow

theorem and_eq_immRow_iff (b : Binary) (w : Word) :
    w &&& 0xF880 = b.row 1 ↔ ∃ gd x i, decode .ignore w = .ok (b.immInstr gd x i) := by
  constructor
  · intro h
    obtain ⟨hop, hi⟩ := field_of_and_row h
    exact ⟨_, _, _, by rw [decode_of_opcode_binary hop, decodeBinary, if_pos hi]⟩
  · rintro ⟨gd, x, i, h⟩
    have hrow := (decodedWordLiesInItsTableRow w _ h).1
    cases b <;> exact hrow

end Binary

end Sys2Proof

/-! PROOFS. The effects the statements speak of (Sys2Proof/Safety.lean), each from the state's updates that have it. -/

namespace Sys2Proof.Machine

/-! ### Phases 1 and 2, and a register write after them -/

/-- What the Exec phase reads (10_state.md R18): PC already holds `next`. -/
theorem State.getReg_advance (s : State) (r : Reg) : s.advance.getReg r = operand s r := by
  by_cases hr : r = .pc
  · subst hr; simp [operand]
  · simp [operand, hr, State.getReg_advance_other s hr]

theorem advance_movedOn (s : State) : MovedOn s s.advance :=
  ⟨rfl, fun _ hr _ => State.getReg_advance_other s hr⟩

theorem advance_latchOperands_movedOn (s : State) (v1 v2 : Byte) : MovedOn s (s.advance.latchOperands v1 v2) :=
  ⟨rfl, fun r hr _ => by rw [State.getReg_latchOperands, State.getReg_advance_other s hr]⟩

theorem keepsMem_of_eq {s t : State} (hp : t.pmem = s.pmem) (hd : t.dmem = s.dmem) : KeepsMem s t :=
  ⟨State.dataCell_congr hd, State.progWord_congr hp⟩

theorem advance_onlyMovedOn (s : State) : OnlyMovedOn s s.advance :=
  ⟨advance_movedOn s, rfl, keepsMem_of_eq rfl rfl, ⟨rfl, rfl⟩, rfl, rfl, rfl, rfl⟩

theorem advance_wroteReg (s : State) (r : Reg) (v : Byte) : WroteReg r v s (s.advance.setReg r v) :=
  (advance_movedOn s).wroteDest (.g r) v

theorem advance_onlyWrote (s : State) (r : Reg) (v : Byte) : OnlyWrote r v s (s.advance.setReg r v) :=
  ⟨advance_wroteReg s r v, by simp, keepsMem_of_eq (by simp) (by simp), by simp [KeepsAlu], by simp [KeepsRun]⟩

/-- A free draw is a register write, made in a state whose draw counter has moved. -/
theorem advance_drewReg (s : State) (r : Reg) : DrewReg r s (s.advance.drawInto r) := by
  have hmoved : MovedOn s { s.advance with draws := s.draws + 1 } :=
    ⟨rfl, fun r hr _ => by cases r <;> first | rfl | exact absurd rfl hr⟩
  exact ⟨hmoved.wroteDest (.g r) _, by simp, by simp, keepsMem_of_eq (by simp) (by simp), by simp [KeepsAlu], by simp,
    by simp, by simp⟩

theorem KeepsRegs.mono {w w' : List Reg} {s t : State} (h : KeepsRegs w s t) (hw : w ⊆ w') : KeepsRegs w' s t :=
  fun r hr hr' => h r hr fun hmem => hr' (hw hmem)

theorem WroteDest.keepsRegs {gd : Dest} {v : Byte} {s t : State} (h : WroteDest gd v s t) : KeepsRegs (destRegs gd) s t := by
  cases gd with
  | f => obtain ⟨-, hregs⟩ := h; exact hregs
  | g r => obtain ⟨-, -, hregs⟩ := h; exact hregs

theorem WroteDest.pc {gd : Dest} {v : Byte} {s t : State} (h : WroteDest gd v s t) (hpc : .pc ∉ destRegs gd) :
    t.pc = s.pc + 1 := by
  cases gd with
  | f => obtain ⟨hpc', -⟩ := h; exact hpc'
  | g r => obtain ⟨-, hpc', -⟩ := h; exact hpc' (by rintro rfl; simp [destRegs] at hpc)

/-- A taken CALL: L holds `next` and PC the address (42_call_jump.md R86). -/
theorem called_keepsRegs (s : State) (imm : Byte) : KeepsRegs [.l] s (s.latchInc.incToL.setReg .pc imm) := by
  intro r hr hl
  cases r <;> first | rfl | exact absurd rfl hr | simp at hl

end Sys2Proof.Machine

/-! PROOFS. What every instruction can do when it answers, said once, and what follows of every instruction: which fields it leaves,
and which invariants every step and every run keep. -/

namespace Sys2Proof.Machine

/-! ### What an instruction can do -/

/-- The two instructions whose result the source calls undefined (93_implementation_defined.md U1, U2). -/
def Instr.Undefined (i : Instr) : Prop := (∃ g, i = .mov g g) ∨ ∃ p : Ptr, i = .load p.reg p

/-- Everything an instruction `i` that answers in a state `s` can have done, in eight shapes. -/
inductive Executed (i : Instr) (s : State) : State → Prop
  | halted (hi : i = .halt) {pc inc : Byte} (hinc : inc = s.inc ∨ inc = s.pc + 1) :
      Executed i s { s with halted := true, pc := pc, inc := inc }
  | movedOn (hi : i ≠ .halt) (hu : ¬ Instr.Undefined i) : Executed i s s.advance
  | wrote (hi : i ≠ .halt) (hu : ¬ Instr.Undefined i) {r : Reg} (hr : r ∈ writes i) (v : Byte) :
      Executed i s (s.advance.setReg r v)
  | drew (hu : Instr.Undefined i) {r : Reg} (hr : r ∈ writes i) : Executed i s (s.advance.drawInto r)
  | storedCell (hi : isStore i = true) {a : Byte} (ha : s.region a = .data) (v : Byte) :
      Executed i s (s.advance.setCell a v)
  | storedWord (hi : isStore i = true) {a : Byte} (ha : s.region a = .prog) (hp : s.cfg.storeToProg = .writesLowByte)
      (v : Byte) : Executed i s (s.advance.setWord a (highByte (s.progWord a) ++ v))
  | computed (hi : isAlu i = true) {gd : Dest} (hw : writes i = destRegs gd) (v1 v2 : Byte) (out : AluOut) :
      Executed i s ((s.advance.latchOperands v1 v2).finishAlu gd out)
  | called {cond : Cond} {imm : Byte} (hi : i = .call cond imm) : Executed i s (s.latchInc.incToL.setReg .pc imm)

section shapes
variable {i : Instr} {s t : State}

theorem executed_of_aluBinary {f : Byte → Byte → Bool → AluOut} {gd : Dest} {x : Reg} {o : Operand2}
    (hi : isAlu i = true) (hw : writes i = destRegs gd) (h : aluBinary f gd x o s = .next t) : Executed i s t := by
  obtain ⟨v1, v2, -, -, rfl⟩ := aluBinary_eq_next.1 h
  exact .computed hi hw v1 v2 _

/-- The unary frame latches its one source and the second register's own value. -/
theorem executed_of_aluUnary {f : Byte → Bool → AluOut} {gd : Dest} {g : Reg}
    (hi : isAlu i = true) (hw : writes i = destRegs gd) (h : aluUnary f gd g s = .next t) : Executed i s t := by
  obtain ⟨v, -, rfl⟩ := aluUnary_eq_next.1 h
  exact .computed hi hw v s.aluOp2 _

theorem executed_of_loadFrom {gd : Reg} {a : Byte} (hi : i ≠ .halt) (hu : ¬ Instr.Undefined i) (hw : gd ∈ writes i)
    (h : loadFrom s.advance gd a = .next t) : Executed i s t := by
  obtain ⟨v, -, rfl⟩ := loadFrom_eq_next.1 h
  exact .wrote hi hu hw v

theorem executed_of_storeTo {gs : Reg} {a : Byte} (hi : isStore i = true) (h : storeTo s.advance gs a = .next t) :
    Executed i s t := by
  obtain ⟨ha, rfl⟩ | ⟨ha, hp, rfl⟩ := memWrite_eq_next.1 h
  · exact .storedCell (s := s) hi ha _
  · exact .storedWord (s := s) hi ha hp _

/-- MOVI and JMP: a register write under a condition. -/
theorem executed_of_conditionalWrite {cond : Cond} {r : Reg} {v : Byte} (hi : i ≠ .halt) (hu : ¬ Instr.Undefined i) (hw : r ∈ writes i)
    (h : (.next (if condHolds cond s.flags then s.advance.setReg r v else s.advance) : Result State) = .next t) :
    Executed i s t := by
  cases h
  split
  · exact .wrote hi hu hw v
  · exact .movedOn hi hu

end shapes

theorem execMov_executed {gd gs : Reg} {s t : State} (h : execMov gd gs s = .next t) : Executed (.mov gd gs) s t := by
  unfold execMov at h
  split at h
  case isTrue heq =>
    subst heq
    split at h <;> cases h
    exact .drew (.inl ⟨_, rfl⟩) (by simp [writes])
  case isFalse hne =>
    cases h
    exact .wrote (by simp) (by simpa [Instr.Undefined, eq_comm] using hne) (by simp [writes]) _

theorem execLoad_executed {gd : Reg} {p : Ptr} {s t : State} (h : execLoad gd p s = .next t) : Executed (.load gd p) s t := by
  unfold execLoad at h
  split at h
  case isTrue heq =>
    subst heq
    split at h
    · cases h
    · obtain ⟨-, rfl⟩ := loadFree_eq_next.1 h
      exact .drew (.inr ⟨_, rfl⟩) (by simp [writes])
  case isFalse hne =>
    exact executed_of_loadFrom (by simp) (by simpa [Instr.Undefined] using hne) (by simp [writes]) h

/-- INC after HALT is open (40_halt_nop.md R70): as it was, or loaded. -/
theorem execHalt_inc {s t : State} (h : execHalt s = .next t) : t.inc = s.inc ∨ t.inc = s.pc + 1 := by
  cases h
  rcases s.cfg.haltPc with _ | _ <;> rcases s.cfg.haltInc with _ | _ <;> simp [State.next]

theorem execHalt_executed {s t : State} (h : execHalt s = .next t) : Executed .halt s t := by
  cases h
  exact .halted rfl (execHalt_inc rfl)

theorem execCall_executed {cond : Cond} {imm : Byte} {s t : State} (h : execCall cond imm s = .next t) :
    Executed (.call cond imm) s t := by
  cases h
  split
  · exact .called rfl
  · exact .movedOn (by simp) (by simp [Instr.Undefined])

/-- An instruction that answers has done one of the eight things. -/
theorem exec_executed {i : Instr} {s t : State} (h : exec i s = .next t) : Executed i s t := by
  cases i
  case nop => cases h; exact .movedOn (by simp) (by simp [Instr.Undefined])
  case halt => exact execHalt_executed h
  case mov => exact execMov_executed h
  case loadImm => exact executed_of_loadFrom (by simp) (by simp [Instr.Undefined]) (by simp [writes]) h
  case load => exact execLoad_executed h
  case storeImm | store => exact executed_of_storeTo rfl h
  case movi | jmp => exact executed_of_conditionalWrite (by simp) (by simp [Instr.Undefined]) (by simp [writes]) h
  case call => exact execCall_executed h
  case not | ror | shr | rcr => exact executed_of_aluUnary rfl rfl h
  all_goals exact executed_of_aluBinary rfl rfl h

/-! ### Which instructions have which shape -/

section classes
variable {i : Instr}

theorem not_undefined_of_isAlu (h : isAlu i = true) : ¬ Instr.Undefined i := by
  rintro (⟨g, rfl⟩ | ⟨p, rfl⟩) <;> cases h

theorem not_undefined_of_isStore (h : isStore i = true) : ¬ Instr.Undefined i := by
  rintro (⟨g, rfl⟩ | ⟨p, rfl⟩) <;> cases h

theorem ne_halt_of_isAlu (h : isAlu i = true) : i ≠ .halt := by rintro rfl; cases h

theorem ne_halt_of_isStore (h : isStore i = true) : i ≠ .halt := by rintro rfl; cases h

theorem Instr.Undefined.ne_halt (h : Instr.Undefined i) : i ≠ .halt := by
  obtain ⟨g, rfl⟩ | ⟨p, rfl⟩ := h <;> simp

end classes

/-! ### What each instruction leaves unchanged -/

section frames
variable {i : Instr} {s t : State}

theorem Executed.cfg (h : Executed i s t) : t.cfg = s.cfg := by
  cases h with
  | halted | movedOn => rfl
  | _ => simp

theorem Executed.flags (h : Executed i s t) (hi : isAlu i = false) : t.flags = s.flags := by
  cases h with
  | computed halu => simp [hi] at halu
  | halted | movedOn => rfl
  | _ => simp

/-- The memories: both stay, or a STORE lists one data cell or one program word, whose upper byte it keeps. -/
theorem Executed.memories (h : Executed i s t) :
    (t.pmem = s.pmem ∧ t.dmem = s.dmem) ∨
    (isStore i = true ∧ ∃ a v : Byte, s.region a = .data ∧ t.pmem = s.pmem ∧ t.dmem = Memory.put s.dmem a.toNat v) ∨
    (isStore i = true ∧ ∃ a v : Byte, s.region a = .prog ∧ s.cfg.storeToProg = .writesLowByte ∧
      t.pmem = Memory.put s.pmem a.toNat (highByte (s.progWord a) ++ v) ∧ t.dmem = s.dmem) := by
  cases h with
  | storedCell hi ha v => exact .inr (.inl ⟨hi, _, v, ha, rfl, rfl⟩)
  | storedWord hi ha hp v => exact .inr (.inr ⟨hi, _, v, ha, hp, rfl, rfl⟩)
  | halted | movedOn => exact .inl ⟨rfl, rfl⟩
  | _ => exact .inl (by simp)

theorem Executed.clock (h : Executed i s t) : t.halted = if i = .halt then true else s.halted := by
  cases h with
  | halted hi => simp [hi]
  | movedOn hi | wrote hi => simp [hi]
  | drew hu => simp [hu.ne_halt]
  | storedCell hst | storedWord hst => simp [ne_halt_of_isStore hst]
  | computed halu => simp [ne_halt_of_isAlu halu]
  | called hi => simp [hi]

theorem Executed.draws_of_undefined (h : Executed i s t) (hu : Instr.Undefined i) : t.draws = s.draws + 1 := by
  cases h with
  | drew => simp
  | halted hi => exact absurd hi hu.ne_halt
  | movedOn _ hnu | wrote _ hnu => exact absurd hu hnu
  | storedCell hst | storedWord hst => exact absurd hu (not_undefined_of_isStore hst)
  | computed halu => exact absurd hu (not_undefined_of_isAlu halu)
  | called hi => simp [hi, Instr.Undefined] at hu

theorem Executed.draws (h : Executed i s t) (hu : ¬ Instr.Undefined i) : t.draws = s.draws := by
  cases h with
  | drew hu' => exact absurd hu' hu
  | halted | movedOn => rfl
  | _ => simp

theorem Executed.inc (h : Executed i s t) (hi : i ≠ .halt) : t.inc = s.pc + 1 := by
  cases h with
  | halted hi' => exact absurd hi' hi
  | movedOn => rfl
  | _ => simp

/-- The registers: only those the instruction names are written. -/
theorem Executed.keepsRegs (h : Executed i s t) : KeepsRegs (writes i) s t := by
  cases h with
  | halted => exact fun r hr _ => by cases r <;> first | rfl | exact absurd rfl hr
  | movedOn => exact (advance_movedOn s).2.mono (by simp)
  | wrote _ _ hr v => exact (WroteDest.keepsRegs (gd := .g _) (advance_wroteReg s _ v)).mono (by simpa [destRegs])
  | drew _ hr => exact (WroteDest.keepsRegs (gd := .g _) (advance_drewReg s _).1).mono (by simpa [destRegs])
  | storedCell | storedWord => exact fun r hr _ => by simp [State.getReg_advance_other s hr]
  | computed _ hw v1 v2 =>
    exact hw ▸ (((advance_latchOperands_movedOn s v1 v2).of_flags _).wroteDest _ _).keepsRegs
  | called hi => subst hi; exact (called_keepsRegs s _).mono (by simp [writes])

/-- PC: it moves to the next instruction unless it is one of the registers the instruction names. -/
theorem Executed.pc (h : Executed i s t) (hi : i ≠ .halt) (hpc : .pc ∉ writes i) : t.pc = s.pc + 1 := by
  cases h with
  | halted hi' => exact absurd hi' hi
  | movedOn => rfl
  | wrote _ _ hr v => rw [State.setReg_pc_other _ _ (ne_of_mem_of_not_mem hr hpc), State.advance_pc]
  | drew _ hr =>
    obtain ⟨⟨-, hnext, -⟩, -⟩ := advance_drewReg s _
    exact hnext (ne_of_mem_of_not_mem hr hpc)
  | storedCell | storedWord => rfl
  | computed _ hw v1 v2 => exact (((advance_latchOperands_movedOn s v1 v2).of_flags _).wroteDest _ _).pc (hw ▸ hpc)
  | called hi' => subst hi'; simp [writes] at hpc

end frames

/-! ### The statements about every instruction -/

/-- Settles O53: the one shape that writes flags is the ALU's. -/
theorem onlyAluWritesFlags : Obligations.OnlyAluWritesFlags :=
  fun _ _ _ hi h => (exec_executed h).flags hi

/-- Settles O54: each shape writes only registers the instruction names, and PC. -/
theorem onlyNamedRegistersAreWritten : Obligations.OnlyNamedRegistersAreWritten :=
  fun _ _ _ r h hpc hr => (exec_executed h).keepsRegs r hpc hr

/-- Settles O55: the two shapes that list a location are the STOREs'. -/
theorem onlyStoresWriteMemory : Obligations.OnlyStoresWriteMemory := by
  intro i s t hi h
  obtain hsame | ⟨hst, -⟩ | ⟨hst, -⟩ := (exec_executed h).memories
  · exact hsame
  all_goals simp [hi] at hst

/-- Settles O56: every shape but HALT's starts with phases 1 and 2, and PC keeps what they give it unless it is written. -/
theorem pcAdvancesUnlessWritten : Obligations.PcAdvancesUnlessWritten :=
  fun _ _ _ hi h => ⟨(exec_executed h).pc hi, (exec_executed h).inc hi⟩

/-- Settles O57: the one shape that touches the clock is HALT's. -/
theorem onlyHaltStopsTheClock : Obligations.OnlyHaltStopsTheClock :=
  fun _ _ _ h => (exec_executed h).clock

/-- Settles O58: the one shape that draws is that of the two undefined results. -/
theorem freeDrawsOnlyForUndefinedResults : Obligations.FreeDrawsOnlyForUndefinedResults :=
  fun _ _ _ h => ⟨(exec_executed h).draws_of_undefined, (exec_executed h).draws⟩

/-! ### What every step keeps -/

/-- Settles O9: no shape writes the parameters. -/
theorem stepKeepsParameters : Obligations.StepKeepsParameters := by
  intro s t h
  obtain ⟨-, rfl⟩ | ⟨-, -, i, -, hi⟩ := step_eq_next.1 h
  · rfl
  · exact (exec_executed hi).cfg

/-- The memories after a step: both as before, or with one data cell or one program word listed by a STORE. -/
theorem step_memories {s t : State} (h : step s = .next t) :
    (t.pmem = s.pmem ∧ t.dmem = s.dmem) ∨
    (∃ a v : Byte, s.region a = .data ∧ t.pmem = s.pmem ∧ t.dmem = Memory.put s.dmem a.toNat v) ∨
    (∃ a v : Byte, s.region a = .prog ∧ s.cfg.storeToProg = .writesLowByte ∧
      t.pmem = Memory.put s.pmem a.toNat (highByte (s.progWord a) ++ v) ∧ t.dmem = s.dmem) := by
  obtain ⟨-, rfl⟩ | ⟨-, -, i, -, hi⟩ := step_eq_next.1 h
  · exact .inl ⟨rfl, rfl⟩
  · exact (exec_executed hi).memories.imp_right (.imp And.right And.right)

/-- Settles O7: listing a location at an 8-bit address keeps the order and the bound. -/
theorem stepKeepsMemoriesCanonical : Obligations.StepKeepsMemoriesCanonical := by
  intro s t hwf h
  simp only [State.wf, Bool.and_eq_true] at hwf ⊢
  obtain ⟨hp, hd⟩ := hwf
  obtain ⟨hpm, hdm⟩ | ⟨a, v, -, hpm, hdm⟩ | ⟨a, v, -, -, hpm, hdm⟩ := step_memories h <;> rw [hpm, hdm]
  · exact ⟨hp, hd⟩
  · exact ⟨hp, Memory.wf_put a v hd⟩
  · exact ⟨Memory.wf_put a _ hp, hd⟩

/-- Every listed address is of region `k`. -/
def ListedIn (s : State) (k : Region) {w : Nat} (m : Memory w) : Prop := ∀ e ∈ m, s.region (BitVec.ofNat 8 e.1) = k

theorem placed_iff {s : State} : s.placed = true ↔ ListedIn s .prog s.pmem ∧ ListedIn s .data s.dmem := by
  simp [State.placed, ListedIn]

theorem Memory.mem_of_mem_put {w : Nat} {m : Memory w} {a : Nat} {v : BitVec w} {e : Nat × BitVec w}
    (h : e ∈ Memory.put m a v) : e = (a, v) ∨ e ∈ m := by
  induction m with
  | nil => simpa [Memory.put] using h
  | cons x rest ih =>
    unfold Memory.put at h
    split at h
    · simpa using h
    · split at h
      · exact (List.mem_cons.1 h).imp_right (List.mem_cons_of_mem _)
      · obtain rfl | h := List.mem_cons.1 h
        · simp
        · exact (ih h).imp_right (List.mem_cons_of_mem _)

theorem ListedIn.put {s : State} {k : Region} {w : Nat} {m : Memory w} (h : ListedIn s k m) {a : Byte}
    (ha : s.region a = k) (v : BitVec w) : ListedIn s k (Memory.put m a.toNat v) := by
  intro e he
  obtain rfl | he := Memory.mem_of_mem_put he
  · simpa using ha
  · exact h e he

/-- Settles O8: REGION stays, and a store lists an address in the memory REGION gives it to. -/
theorem stepKeepsMemoriesInTheirRegions : Obligations.StepKeepsMemoriesInTheirRegions := by
  intro s t hplaced h
  have hregion : ∀ {k w} {m : Memory w}, ListedIn s k m → ListedIn t k m := fun hm e he =>
    (State.region_congr (stepKeepsParameters s t h) _).trans (hm e he)
  rw [placed_iff] at hplaced ⊢
  obtain ⟨hp, hd⟩ := hplaced
  obtain ⟨hpm, hdm⟩ | ⟨a, v, ha, hpm, hdm⟩ | ⟨a, v, ha, -, hpm, hdm⟩ := step_memories h <;> rw [hpm, hdm]
  · exact ⟨hregion hp, hregion hd⟩
  · exact ⟨hregion hp, hregion (hd.put ha v)⟩
  · exact ⟨hregion (hp.put ha _), hregion hd⟩

/-! ### What every run keeps -/

theorem run_succ (k : Nat) (s : State) :
    Sys2Proof.core.run (k + 1) s = andThen (step s) fun u => (Sys2Proof.core.run k u : Result State) := by
  rcases h : step s with u | r | r <;> simp only [Host.Core.run, show Sys2Proof.core.step s = _ from h] <;> rfl

theorem run_succ_eq_next {k : Nat} {s t : State} :
    Sys2Proof.core.run (k + 1) s = .next t ↔ ∃ u, step s = .next u ∧ Sys2Proof.core.run k u = .next t :=
  (iff_of_eq (congrArg (· = _) (run_succ k s))).trans andThen_eq_next

/-- An invariant that every step keeps holds after every run. -/
theorem run_keeps {I : State → Prop} (hstep : ∀ {s t}, I s → step s = .next t → I t) {k : Nat} {s t : State} (hs : I s)
    (h : Sys2Proof.core.run k s = .next t) : I t := by
  induction k generalizing s with
  | zero => cases h; exact hs
  | succ k ih =>
    obtain ⟨u, hu, hrun⟩ := run_succ_eq_next.1 h
    exact ih (hstep hs hu) hrun

/-- Settles O10: the shape that lists a program word needs the other value of the parameter, and the parameter stays. -/
theorem refusedStoresKeepProgramMemory : Obligations.RefusedStoresKeepProgramMemory := by
  intro k s t hcfg h
  refine (run_keeps (I := fun u => u.cfg.storeToProg = .refuse ∧ u.pmem = s.pmem) ?_ ⟨hcfg, rfl⟩ h).2
  rintro u u' ⟨hu, hpm⟩ hstep
  refine ⟨stepKeepsParameters u u' hstep ▸ hu, ?_⟩
  obtain ⟨hpm', -⟩ | ⟨a, v, -, hpm', -⟩ | ⟨a, v, -, hw, -⟩ := step_memories hstep
  · exact hpm'.trans hpm
  · exact hpm'.trans hpm
  · simp [hu] at hw

theorem step_keeps_highByte {s t : State} (h : step s = .next t) (b : Byte) :
    highByte (t.progWord b) = highByte (s.progWord b) := by
  obtain ⟨hpm, -⟩ | ⟨a, v, -, hpm, -⟩ | ⟨a, v, -, -, hpm, -⟩ := step_memories h
  · rw [State.progWord_congr hpm]
  · rw [State.progWord_congr hpm]
  · rw [State.progWord_congr (s := s.setWord a (highByte (s.progWord a) ++ v)) hpm]
    by_cases hb : b = a
    · subst hb; simp
    · rw [State.progWord_setWord_other _ _ hb]

/-- Settles O11: a store to a program word keeps its upper byte, and every other word. -/
theorem upperBytesOfProgramNeverChange : Obligations.UpperBytesOfProgramNeverChange :=
  fun _ s _ a h => run_keeps (I := fun u => highByte (u.progWord a) = highByte (s.progWord a))
    (fun hu hstep => (step_keeps_highByte hstep a).trans hu) rfl h

/-- Settles O6: by induction on the number of steps, each of which answers the same state. -/
theorem haltedMachineNeverMoves : Obligations.HaltedMachineNeverMoves := by
  intro s k hs
  induction k with
  | zero => rfl
  | succ k ih => exact run_succ_eq_next.2 ⟨s, step_eq_next.2 (.inl ⟨hs, rfl⟩), ih⟩

end Sys2Proof.Machine

/-! PROOFS. Every reason for which an instruction can stop (93_implementation_defined.md section 3), operation by operation. -/

namespace Sys2Proof.Machine

/-! ### What makes a shared operation refuse -/

theorem andThen_eq_refused {α β : Type} {x : Result α} {k : α → Result β} {r : Refusal} :
    andThen x k = .refused r ↔ x = .refused r ∨ ∃ u, x = .next u ∧ k u = .refused r := by
  cases x <;> simp [andThen]

theorem memRead_eq_refused {s : State} {a : Byte} {r : Refusal} :
    memRead s a = .refused r ↔ r = .accessToUnmapped ∧ s.region a = .none := by
  unfold memRead
  cases s.region a <;> simp [eq_comm]

theorem memWrite_eq_refused {s : State} {a v : Byte} {r : Refusal} :
    memWrite s a v = .refused r ↔
      r = .storeToProg ∧ s.cfg.storeToProg = .refuse ∧ s.region a = .prog ∨
      r = .accessToUnmapped ∧ s.region a = .none := by
  unfold memWrite
  cases s.region a <;> cases s.cfg.storeToProg <;> simp [eq_comm]

theorem aluRead_eq_refused {s : State} {g : Reg} {r : Refusal} :
    aluRead s g = .refused r ↔ r = .aluPcSource ∧ s.cfg.aluPcRead = .refuse ∧ g = .pc := by
  unfold aluRead
  by_cases hg : g = .pc
  · cases s.cfg.aluPcRead <;> simp [hg, eq_comm]
  · simp [hg]

theorem aluReadOperand2_eq_refused {s : State} {o : Operand2} {r : Refusal} :
    aluReadOperand2 s o = .refused r ↔ r = .aluPcSource ∧ s.cfg.aluPcRead = .refuse ∧ o = .reg .pc := by
  cases o <;> simp [aluReadOperand2, aluRead_eq_refused]

theorem loadFrom_eq_refused {s : State} {gd : Reg} {a : Byte} {r : Refusal} :
    loadFrom s gd a = .refused r ↔ r = .accessToUnmapped ∧ s.region a = .none := by
  simp [loadFrom, andThen_eq_refused, memRead_eq_refused]

theorem loadFree_eq_refused {s : State} {gd : Reg} {a : Byte} {r : Refusal} :
    loadFree s gd a = .refused r ↔ r = .accessToUnmapped ∧ s.region a = .none := by
  simp [loadFree, andThen_eq_refused, memRead_eq_refused]

/-- The binary frame refuses when a source that is PC may not be read. -/
theorem aluBinary_refused {f : Byte → Byte → Bool → AluOut} {gd : Dest} {x : Reg} {o : Operand2} {s : State} {r : Refusal}
    (h : aluBinary f gd x o s = .refused r) : r = .aluPcSource ∧ s.cfg.aluPcRead = .refuse ∧ (x = .pc ∨ o = .reg .pc) := by
  obtain hx | ⟨v1, -, h⟩ := andThen_eq_refused.1 h
  · obtain ⟨hr, hc, hx⟩ := aluRead_eq_refused.1 hx
    exact ⟨hr, hc, .inl hx⟩
  · obtain ho | ⟨v2, -, h⟩ := andThen_eq_refused.1 h
    · obtain ⟨hr, hc, ho⟩ := aluReadOperand2_eq_refused.1 ho
      exact ⟨hr, hc, .inr ho⟩
    · cases h

theorem aluUnary_refused {f : Byte → Bool → AluOut} {gd : Dest} {g : Reg} {s : State} {r : Refusal}
    (h : aluUnary f gd g s = .refused r) : r = .aluPcSource ∧ s.cfg.aluPcRead = .refuse ∧ g = .pc := by
  obtain hg | ⟨v, -, h⟩ := andThen_eq_refused.1 h
  · exact aluRead_eq_refused.1 hg
  · cases h

/-! ### What makes an instruction stop -/

/-- The reasons the statement lists, each with what it needs of the instruction and the state. -/
inductive Refused (i : Instr) (s : State) : Refusal → Prop
  | movToItself (hu : s.cfg.undefinedResult = .refuse) (hi : ∃ g, i = .mov g g) : Refused i s .movToItself
  | loadThroughItself (hu : s.cfg.undefinedResult = .refuse) (hi : ∃ p : Ptr, i = .load p.reg p) : Refused i s .loadThroughItself
  | aluPcSource (hc : s.cfg.aluPcRead = .refuse) (hi : .pc ∈ aluSources i) : Refused i s .aluPcSource
  | storeToProg (hc : s.cfg.storeToProg = .refuse) (hi : isStore i = true) {a : Byte} (ha : dataAddress s i = some a)
      (hr : s.region a = .prog) : Refused i s .storeToProg
  | accessToUnmapped {a : Byte} (ha : dataAddress s i = some a) (hr : s.region a = .none) : Refused i s .accessToUnmapped

section
variable {i : Instr} {s : State} {r : Refusal}

theorem refused_of_aluBinary {f : Byte → Byte → Bool → AluOut} {gd : Dest} {x : Reg} {o : Operand2}
    (hx : x ∈ aluSources i) (ho : ∀ y, o = .reg y → y ∈ aluSources i) (h : aluBinary f gd x o s = .refused r) : Refused i s r := by
  obtain ⟨rfl, hc, rfl | rfl⟩ := aluBinary_refused h
  · exact .aluPcSource hc hx
  · exact .aluPcSource hc (ho _ rfl)

theorem refused_of_aluUnary {f : Byte → Bool → AluOut} {gd : Dest} {g : Reg} (hg : g ∈ aluSources i)
    (h : aluUnary f gd g s = .refused r) : Refused i s r := by
  obtain ⟨rfl, hc, rfl⟩ := aluUnary_refused h
  exact .aluPcSource hc hg

theorem refused_of_loadFrom {gd : Reg} {a : Byte} (ha : dataAddress s i = some a)
    (h : loadFrom s.advance gd a = .refused r) : Refused i s r := by
  obtain ⟨rfl, hr⟩ := loadFrom_eq_refused.1 h
  exact .accessToUnmapped ha hr

theorem refused_of_storeTo {gs : Reg} {a : Byte} (hi : isStore i = true) (ha : dataAddress s i = some a)
    (h : storeTo s.advance gs a = .refused r) : Refused i s r := by
  obtain ⟨rfl, hc, hr⟩ | ⟨rfl, hr⟩ := memWrite_eq_refused.1 h
  · exact .storeToProg hc hi ha hr
  · exact .accessToUnmapped ha hr

end

theorem execMov_refused {gd gs : Reg} {s : State} {r : Refusal} (h : execMov gd gs s = .refused r) : Refused (.mov gd gs) s r := by
  unfold execMov at h
  split at h
  · next heq =>
    subst heq
    split at h <;> cases h
    exact .movToItself ‹_› ⟨_, rfl⟩
  · cases h

theorem execLoad_refused {gd : Reg} {p : Ptr} {s : State} {r : Refusal} (h : execLoad gd p s = .refused r) :
    Refused (.load gd p) s r := by
  unfold execLoad at h
  split at h
  · next heq =>
    subst heq
    split at h
    · cases h
      exact .loadThroughItself ‹_› ⟨_, rfl⟩
    · obtain ⟨rfl, hr⟩ := loadFree_eq_refused.1 h
      exact .accessToUnmapped rfl hr
  · exact refused_of_loadFrom rfl h

theorem exec_refused {i : Instr} {s : State} {r : Refusal} (h : exec i s = .refused r) : Refused i s r := by
  cases i with
  | nop | halt | movi | jmp | call => cases h
  | mov => exact execMov_refused h
  | loadImm => exact refused_of_loadFrom rfl h
  | load => exact execLoad_refused h
  | storeImm | store => exact refused_of_storeTo rfl rfl h
  | not | ror | shr | rcr => exact refused_of_aluUnary (by simp [aluSources]) h
  | _ => exact refused_of_aluBinary (by simp [aluSources]) (by simp [aluSources]) h

/-- Settles O13: the refusals by the instruction's form; a fault has no value (00_scope.md R8). -/
theorem execStopsOnlyByTheListedReasons : Obligations.ExecStopsOnlyByTheListedReasons := by
  refine ⟨fun i s r h => ?_, fun _ _ f => nomatch f⟩
  cases exec_refused h with
  | movToItself hu hi => exact .inl ⟨rfl, hu, hi⟩
  | loadThroughItself hu hi => exact .inr (.inl ⟨rfl, hu, hi⟩)
  | aluPcSource hc hi => exact .inr (.inr (.inl ⟨rfl, hc, hi⟩))
  | storeToProg hc hi ha hr => exact .inr (.inr (.inr (.inl ⟨rfl, hc, hi, _, ha, hr⟩)))
  | accessToUnmapped ha hr => exact .inr (.inr (.inr (.inr ⟨rfl, _, ha, hr⟩)))

/-- Settles O12: each listed reason needs a parameter, or an unmapped address, that the hypothesis excludes. -/
theorem everyInstructionCompletes : Obligations.EveryInstructionCompletes := by
  rintro i s ⟨hmapped, hstore, hpc, hfree⟩
  cases h : exec i s with
  | next t => exact ⟨t, rfl⟩
  | fault f => cases f
  | refused r =>
    cases exec_refused h with
    | movToItself hu | loadThroughItself hu => simp [hfree] at hu
    | aluPcSource hc => exact absurd hc hpc
    | storeToProg hc => simp [hstore] at hc
    | accessToUnmapped _ hr => exact absurd hr (hmapped _)

end Sys2Proof.Machine

/-! PROOFS. The seven binary ALU operations (44_alu_binary.md): their frame, what their functions compute, their sources, and the
idioms CMP and the shift by addition. -/

namespace Sys2Proof.Machine

/-! ### The frame -/

/-- What each binary operation computes. -/
def binaryFn : Binary → Byte → Byte → Bool → AluOut
  | .adc => aluAdc
  | .add => aluAdd
  | .sbc => aluSbc
  | .sub => aluSub
  | .and => aluAnd
  | .or => aluOr
  | .xor => aluXor

/-- What each unary operation computes. -/
def unaryFn (u : BitVec 2) : Byte → Bool → AluOut :=
  match u.toNat with
  | 0 => aluNot
  | 1 => aluRor
  | 2 => aluShr
  | _ => aluRcr

theorem exec_regInstr (b : Binary) (gd : Dest) (x y : Reg) (s : State) :
    exec (b.regInstr gd x y) s = aluBinary (binaryFn b) gd x (.reg y) s := by cases b <;> rfl

theorem exec_immInstr (b : Binary) (gd : Dest) (x : Reg) (i : BitVec 3) (s : State) :
    exec (b.immInstr gd x i) s = aluBinary (binaryFn b) gd x (.imm i) s := by cases b <;> rfl

theorem exec_unaryInstr (u : BitVec 2) (gd : Dest) (g : Reg) (s : State) :
    exec (unaryInstr u gd g) s = aluUnary (unaryFn u) gd g s := by
  match u with
  | 0 | 1 | 2 | 3 => rfl

/-- The binary frame answers, with the effect of what its function computes, whenever its sources can be read. -/
theorem aluBinary_aluEffect {f : Byte → Byte → Bool → AluOut} {gd : Dest} {x : Reg} {o : Operand2} {s : State}
    {v1 v2 res : Byte} {cy : Bool} (hx : aluRead s x = .next v1) (ho : aluReadOperand2 s o = .next v2)
    (hf : f v1 v2 s.flags.cy = aluOut res cy) : ∃ t, aluBinary f gd x o s = .next t ∧ AluEffect gd res cy s t :=
  ⟨_, aluBinary_eq_next.2 ⟨v1, v2, hx, ho, rfl⟩,
    hf ▸ finishAlu_aluEffect (advance_latchOperands_movedOn s v1 v2) rfl rfl ⟨rfl, rfl, rfl, rfl⟩⟩

/-- A binary operation is what its function computes, in both forms, and its two rows are the words that decode to it. -/
theorem binaryOp_of_binaryFn (b : Binary) {res : Byte → Byte → Bool → Byte} {cy : Byte → Byte → Bool → Bool}
    (hf : ∀ v1 v2 cin, binaryFn b v1 v2 cin = aluOut (res v1 v2 cin) (cy v1 v2 cin)) :
    BinaryOp b.regInstr b.immInstr res cy (b.row 0) := by
  refine ⟨fun gd x y s v1 v2 hx hy => ?reg, fun gd x i s v1 hx => ?imm, b.and_eq_regRow_iff, fun w => ?immRow⟩
  case reg =>
    rw [exec_regInstr]
    exact aluBinary_aluEffect hx hy (hf v1 v2 s.flags.cy)
  case imm =>
    rw [exec_immInstr]
    exact aluBinary_aluEffect hx rfl (hf v1 (i.setWidth 8) s.flags.cy)
  case immRow =>
    have hrow : b.row 0 ||| 0x0080 = b.row 1 := by cases b <;> rfl
    rw [hrow]
    exact b.and_eq_immRow_iff w

/-! ### What the operations compute -/

theorem aluAdc_eq (v1 v2 : Byte) (cin : Bool) : aluAdc v1 v2 cin =
    aluOut (v1 + v2 + BitVec.ofNat 8 cin.toNat) (decide (256 ≤ v1.toNat + v2.toNat + cin.toNat)) := by
  simp [aluAdc, BitVec.ofNat_add]

theorem aluAdd_eq (v1 v2 : Byte) (cin : Bool) :
    aluAdd v1 v2 cin = aluOut (v1 + v2) (decide (256 ≤ v1.toNat + v2.toNat)) := by
  simp [aluAdd, BitVec.ofNat_add]

/-- The low 8 bits of an exact difference. -/
theorem ofInt_sub_natCast (x : ℤ) (n : ℕ) : BitVec.ofInt 8 (x - n) = BitVec.ofInt 8 x - BitVec.ofNat 8 n := by
  rw [sub_eq_add_neg, BitVec.ofInt_add, BitVec.ofInt_neg, BitVec.ofInt_natCast, BitVec.sub_eq_add_neg]

/-- The borrow: the exact difference is negative. -/
theorem aluSbc_eq (v1 v2 : Byte) (cin : Bool) : aluSbc v1 v2 cin =
    aluOut (v1 - v2 - BitVec.ofNat 8 cin.toNat) (decide (v1.toNat < v2.toNat + cin.toNat)) := by
  have hborrow : (v1.toNat : ℤ) - v2.toNat - cin.toNat < 0 ↔ v1.toNat < v2.toNat + cin.toNat := by omega
  simp only [aluSbc, hborrow, ofInt_sub_natCast, BitVec.ofInt_natCast, BitVec.ofNat_toNat, BitVec.setWidth_eq]

theorem aluSub_eq (v1 v2 : Byte) (cin : Bool) : aluSub v1 v2 cin = aluOut (v1 - v2) (decide (v1.toNat < v2.toNat)) := by
  have hborrow : (v1.toNat : ℤ) - v2.toNat < 0 ↔ v1.toNat < v2.toNat := by omega
  simp only [aluSub, hborrow, ofInt_sub_natCast, BitVec.ofInt_natCast, BitVec.ofNat_toNat, BitVec.setWidth_eq]

/-- Settles O38: the sum modulo 256 is the sum of the bytes, and the carry is read off the exact sum. -/
theorem adcAddsWithCarry : Obligations.AdcAddsWithCarry := binaryOp_of_binaryFn .adc aluAdc_eq

/-- Settles O39: as ADC, without the carry in. -/
theorem addAddsWithoutCarry : Obligations.AddAddsWithoutCarry := binaryOp_of_binaryFn .add aluAdd_eq

/-- Settles O40: the difference modulo 256 is the difference of the bytes, and the borrow is read off the exact difference. -/
theorem sbcSubtractsWithBorrow : Obligations.SbcSubtractsWithBorrow := binaryOp_of_binaryFn .sbc aluSbc_eq

/-- Settles O41: as SBC, without the carry in. -/
theorem subSubtractsWithBorrowOut : Obligations.SubSubtractsWithBorrowOut := binaryOp_of_binaryFn .sub aluSub_eq

/-- Settles O42: the function is the bitwise one, with the carry cleared. -/
theorem andClearsCarry : Obligations.AndClearsCarry := binaryOp_of_binaryFn .and fun _ _ _ => rfl

/-- Settles O43: the function is the bitwise one, with the carry cleared. -/
theorem orClearsCarry : Obligations.OrClearsCarry := binaryOp_of_binaryFn .or fun _ _ _ => rfl

/-- Settles O44: the function is the bitwise one, with the carry cleared. -/
theorem xorClearsCarry : Obligations.XorClearsCarry := binaryOp_of_binaryFn .xor fun _ _ _ => rfl

/-! ### The sources of the eleven operations -/

theorem exists_binary_of_mem_reg {mk : Dest → Reg → Reg → Instr}
    (h : mk ∈ ([.adcReg, .addReg, .sbcReg, .subReg, .andReg, .orReg, .xorReg] : List (Dest → Reg → Reg → Instr))) :
    ∃ b : Binary, mk = b.regInstr := by
  simp only [List.mem_cons, List.not_mem_nil, or_false] at h
  obtain rfl | rfl | rfl | rfl | rfl | rfl | rfl := h
  exacts [⟨.adc, rfl⟩, ⟨.add, rfl⟩, ⟨.sbc, rfl⟩, ⟨.sub, rfl⟩, ⟨.and, rfl⟩, ⟨.or, rfl⟩, ⟨.xor, rfl⟩]

theorem exists_binary_of_mem_imm {mk : Dest → Reg → BitVec 3 → Instr}
    (h : mk ∈ ([.adcImm, .addImm, .sbcImm, .subImm, .andImm, .orImm, .xorImm] : List (Dest → Reg → BitVec 3 → Instr))) :
    ∃ b : Binary, mk = b.immInstr := by
  simp only [List.mem_cons, List.not_mem_nil, or_false] at h
  obtain rfl | rfl | rfl | rfl | rfl | rfl | rfl := h
  exacts [⟨.adc, rfl⟩, ⟨.add, rfl⟩, ⟨.sbc, rfl⟩, ⟨.sub, rfl⟩, ⟨.and, rfl⟩, ⟨.or, rfl⟩, ⟨.xor, rfl⟩]

theorem exists_code_of_mem_unary {mk : Dest → Reg → Instr}
    (h : mk ∈ ([.not, .ror, .shr, .rcr] : List (Dest → Reg → Instr))) : ∃ u : BitVec 2, mk = unaryInstr u := by
  simp only [List.mem_cons, List.not_mem_nil, or_false] at h
  obtain rfl | rfl | rfl | rfl := h
  exacts [⟨0, rfl⟩, ⟨1, rfl⟩, ⟨2, rfl⟩, ⟨3, rfl⟩]

/-- Settles O50: both frames latch the values read, and the unary one leaves the second register alone. -/
theorem aluLatchesItsSources : Obligations.AluLatchesItsSources := by
  refine ⟨fun mk hmk gd x y s t h => ?reg, fun mk hmk gd x i s t h => ?imm, fun mk hmk gd g s t h => ?unary⟩
  case reg =>
    obtain ⟨b, rfl⟩ := exists_binary_of_mem_reg hmk
    obtain ⟨v1, v2, hx, hy, rfl⟩ := aluBinary_eq_next.1 (exec_regInstr b gd x y s ▸ h)
    simpa using ⟨hx, hy⟩
  case imm =>
    obtain ⟨b, rfl⟩ := exists_binary_of_mem_imm hmk
    obtain ⟨v1, v2, hx, hi, rfl⟩ := aluBinary_eq_next.1 (exec_immInstr b gd x i s ▸ h)
    cases hi
    simpa using hx
  case unary =>
    obtain ⟨u, rfl⟩ := exists_code_of_mem_unary hmk
    obtain ⟨v, hg, rfl⟩ := aluUnary_eq_next.1 (exec_unaryInstr u gd g s ▸ h)
    simpa using hg

section refuse
variable {s : State} (hc : s.cfg.aluPcRead = .refuse)
include hc

theorem aluRead_pc_refused : aluRead s .pc = .refused .aluPcSource := aluRead_eq_refused.2 ⟨rfl, hc, rfl⟩

theorem aluBinary_pc_first {f : Byte → Byte → Bool → AluOut} {gd : Dest} {o : Operand2} :
    aluBinary f gd .pc o s = .refused .aluPcSource :=
  andThen_eq_refused.2 (.inl (aluRead_pc_refused hc))

theorem aluBinary_pc_second {f : Byte → Byte → Bool → AluOut} {gd : Dest} {x : Reg} :
    aluBinary f gd x (.reg .pc) s = .refused .aluPcSource := by
  by_cases hx : x = .pc
  · rw [hx, aluBinary_pc_first hc]
  · exact andThen_eq_refused.2 (.inr ⟨_, aluRead_of_ne_pc hx, andThen_eq_refused.2 (.inl (aluRead_pc_refused hc))⟩)

end refuse

/-- Settles O49: reading PC refuses in either place of the frame; an immediate is not a register. -/
theorem aluWithPcSourceIsRefused : Obligations.AluWithPcSourceIsRefused := by
  intro s hc
  refine ⟨fun mk hmk gd x y hxy => ?reg, fun mk hmk gd x i => ?imm, fun mk hmk gd => ?unary⟩
  case reg =>
    obtain ⟨b, rfl⟩ := exists_binary_of_mem_reg hmk
    rw [exec_regInstr]
    obtain rfl | rfl := hxy
    · exact aluBinary_pc_first hc
    · exact aluBinary_pc_second hc
  case imm =>
    obtain ⟨b, rfl⟩ := exists_binary_of_mem_imm hmk
    rw [exec_immInstr]
    constructor
    · rintro rfl
      exact aluBinary_pc_first hc
    · exact fun hx => ⟨_, aluBinary_eq_next.2 ⟨_, _, aluRead_of_ne_pc hx, rfl, rfl⟩⟩
  case unary =>
    obtain ⟨u, rfl⟩ := exists_code_of_mem_unary hmk
    rw [exec_unaryInstr]
    exact andThen_eq_refused.2 (.inl (aluRead_pc_refused hc))

/-- Settles O22: the read of a source, by what ALU_PC_READ says. -/
theorem aluSourceReadFollowsParameter : Obligations.AluSourceReadFollowsParameter :=
  fun _ => ⟨fun _ => aluRead_of_ne_pc, aluRead_pc_refused, fun h => aluRead_eq_next.2 (.inr ⟨rfl, .inl ⟨h, rfl⟩⟩),
    fun h => aluRead_eq_next.2 (.inr ⟨rfl, .inr ⟨h, rfl⟩⟩)⟩

/-! ### Idioms (44_alu_binary.md sections 3 and 4) -/

/-- Settles O51: CMP is SUB without a destination; Z says that the difference is 0, CY that it borrows. -/
theorem cmpComparesUnsigned : Obligations.CmpComparesUnsigned := by
  intro x y s hx hy
  obtain ⟨t, hexec, ⟨-, hregs⟩, ⟨hcy, hz, -⟩, -, -⟩ :=
    subSubtractsWithBorrowOut.1 .f x y s _ _ (aluRead_of_ne_pc hx) (aluRead_of_ne_pc hy)
  refine ⟨t, hexec, hregs, ?z, ?c, ?nc⟩
  case z => exact hz.trans (by rw [sub_eq_zero])
  case c => simp [condHolds, hcy]
  case nc => simp [condHolds, hcy]

/-- A byte added to itself is shifted left by one. -/
theorem add_self_eq_shiftLeft (v : Byte) : v + v = v <<< 1 := by
  apply BitVec.eq_of_toNat_eq
  rw [BitVec.toNat_add, BitVec.toNat_shiftLeft, Nat.shiftLeft_eq]
  congr 1; omega

/-- The carry of a byte added to itself, whatever the carry in, is its bit 7. -/
theorem carry_add_self (v : Byte) (cin : Bool) : decide (256 ≤ v.toNat + v.toNat + cin.toNat) = v.getLsbD 7 := by
  have hcin : cin.toNat ≤ 1 := Bool.toNat_le cin
  rw [BitVec.getLsbD_last v, decide_eq_decide]
  omega

/-- Bit 0 of a shifted byte is free for the carry. -/
theorem add_self_add_carry (v : Byte) (cin : Bool) :
    v + v + BitVec.ofNat 8 cin.toNat = v <<< 1 ||| if cin then 1 else 0 := by
  rw [add_self_eq_shiftLeft]
  cases cin with
  | false => simp
  | true =>
    have hfree : v <<< 1 &&& 1#8 = 0#8 := by
      ext i hi
      cases i <;> simp
    exact BitVec.add_eq_or_of_and_eq_zero _ _ hfree

/-- Settles O52: the sum of a byte with itself, and the carry in at the bit the shift frees. -/
theorem addToItselfShiftsLeft : Obligations.AddToItselfShiftsLeft := by
  intro g s hg
  have hread := aluRead_of_ne_pc (s := s) hg
  refine ⟨?add, ?adc⟩
  case add =>
    obtain ⟨t, hexec, ⟨hres, -⟩, ⟨hcy, -⟩, -⟩ := addAddsWithoutCarry.1 (.g g) g g s _ _ hread hread
    exact ⟨t, hexec, hres.trans (add_self_eq_shiftLeft _), hcy.trans (carry_add_self _ false)⟩
  case adc =>
    obtain ⟨t, hexec, ⟨hres, -⟩, ⟨hcy, -⟩, -⟩ := adcAddsWithCarry.1 (.g g) g g s _ _ hread hread
    exact ⟨t, hexec, hres.trans (add_self_add_carry _ _), hcy.trans (carry_add_self _ _)⟩

end Sys2Proof.Machine

/-! PROOFS. The other instructions, each from the effect of the updates its meaning makes (40_halt_nop.md to 43_movi_mov.md). -/

namespace Sys2Proof.Machine

/-! ### Operands and data reads -/

theorem toNat_succ (v : Byte) : (v + 1).toNat = (v.toNat + 1) % 256 := BitVec.toNat_add v 1

/-- Settles O21: PC holds `next` in the Exec phase, and a byte wraps at 256. -/
theorem operandReadOfPcIsNext : Obligations.OperandReadOfPcIsNext :=
  fun s r => ⟨s.getReg_advance r, toNat_succ s.pc⟩

theorem lowByte_eq_setWidth (w : Word) : lowByte w = w.setWidth 8 := by
  rw [lowByte, BitVec.setWidth_eq_extractLsb' (by decide)]

/-- Settles O23: a data read by the region of its address. -/
theorem dataReadSeesItsRegion : Obligations.DataReadSeesItsRegion := by
  refine fun s a => ⟨fun h => ?data, fun h => ?prog, fun h => ?none⟩
  case data => exact memRead_eq_next.2 (.inl ⟨h, rfl⟩)
  case prog => exact memRead_eq_next.2 (.inr ⟨h, lowByte_eq_setWidth _⟩)
  case none => exact memRead_eq_refused.2 ⟨rfl, h⟩

/-! ### NOP and HALT -/

/-- Settles O24: NOP is phases 1 and 2; its row is opcode 00000. -/
theorem nopOnlyMovesOn : Obligations.NopOnlyMovesOn :=
  ⟨fun s => ⟨_, rfl, advance_onlyMovedOn s, toNat_succ s.pc⟩, and_eq_nopRow_iff, rfl,
    fun _ _ hr _ => memRead_eq_next.2 (.inr ⟨hr, rfl⟩)⟩

/-- Settles O25: HALT sets the clock, and PC and INC by its two parameters. -/
theorem haltStopsTheClock : Obligations.HaltStopsTheClock := by
  intro s
  have hregs : KeepsRegs [] s _ := (execHalt_executed (t := _) rfl).keepsRegs
  refine ⟨_, rfl, rfl, hregs, rfl, keepsMem_of_eq rfl rfl, ⟨rfl, rfl⟩, rfl, rfl, ?stays, ?advances, execHalt_inc rfl⟩
  case stays => intro h; simp [h]
  case advances => intro h; simp [h, State.next]

/-! ### MOV -/

/-- Settles O26: with two different registers MOV is the write of the operand read. -/
theorem movCopiesTheSource : Obligations.MovCopiesTheSource := by
  intro gd gs s hne
  refine ⟨s.advance.setReg gd (operand s gs), ?_, advance_onlyWrote s gd _⟩
  simp [exec, execMov, hne, State.getReg_advance]

/-- Settles O27: RET is the MOV of L to PC. -/
theorem retJumpsToLink : Obligations.RetJumpsToLink :=
  ⟨rfl, fun s => ⟨_, rfl, rfl, rfl, advance_onlyWrote s .pc s.l⟩⟩

/-- Settles O28: MOV of a register to itself by the parameter of undefined results. -/
theorem movToItselfIsRefusedOrFree : Obligations.MovToItselfIsRefusedOrFree := by
  refine fun g s => ⟨fun h => by simp [exec, execMov, h], fun h => ⟨s.advance.drawInto g, ?_, advance_drewReg s g⟩⟩
  simp [exec, execMov, h]

/-! ### MOVI, JMP and CALL -/

/-- A register write under a condition answers, with the write or with the move alone. -/
theorem ite_condHolds_effect (cond : Cond) (r : Reg) (v : Byte) (s : State) :
    ∃ t, (.next (if condHolds cond s.flags then s.advance.setReg r v else s.advance) : Result State) = .next t ∧
      (condHolds cond s.flags = true → OnlyWrote r v s t) ∧ (condHolds cond s.flags = false → OnlyMovedOn s t) := by
  cases condHolds cond s.flags with
  | true => exact ⟨_, rfl, fun _ => advance_onlyWrote s r v, nofun⟩
  | false => exact ⟨_, rfl, nofun, fun _ => advance_onlyMovedOn s⟩

/-- Settles O35: MOVI is the write of its immediate under its condition. -/
theorem moviWritesWhenConditionHolds : Obligations.MoviWritesWhenConditionHolds :=
  fun cond gd imm s => ite_condHolds_effect cond gd imm s

/-- Settles O36: JMP is the write of PC under its condition, and so the MOVI to PC. -/
theorem jmpJumpsWhenConditionHolds : Obligations.JmpJumpsWhenConditionHolds := by
  intro cond imm s
  obtain ⟨t, hexec, htaken, hnot⟩ := ite_condHolds_effect cond .pc imm s
  refine ⟨⟨t, hexec, fun h => ?_, hnot⟩, rfl⟩
  obtain ⟨⟨hpc, hregs⟩, hframe⟩ := htaken h
  exact ⟨⟨⟨hpc, hregs⟩, hframe⟩, hpc⟩

/-- Settles O37: a taken CALL sends INC to L and the address to PC; an untaken one is phases 1 and 2. -/
theorem callLinksAndJumpsWhenConditionHolds : Obligations.CallLinksAndJumpsWhenConditionHolds := by
  intro cond imm s
  cases h : condHolds cond s.flags with
  | true =>
    refine ⟨s.latchInc.incToL.setReg .pc imm, by simp [exec, execCall, h], fun _ => ?_, nofun⟩
    exact ⟨toNat_succ s.pc, rfl, called_keepsRegs s imm, rfl, keepsMem_of_eq rfl rfl, ⟨rfl, rfl⟩, rfl, rfl, rfl, rfl⟩
  | false =>
    exact ⟨s.advance, by simp [exec, execCall, h], nofun, fun _ => advance_onlyMovedOn s⟩

/-- Settles O20: the flag each condition names, the table of codes, and that testing a flag keeps it. -/
theorem conditionsReadTheirFlag : Obligations.ConditionsReadTheirFlag := by
  refine ⟨fun f => by simp [condHolds], by decide, fun dc w h15 hcode => ?cond111, fun cond gd imm s t h => ?flags⟩
  case cond111 =>
    obtain ⟨htop, hcond, -⟩ := field_opcode w
    have hjoin : ∀ op : BitVec 5, op.extractLsb' 4 1 = 1 → op.extractLsb' 1 3 = 7 → ∃ k, op = condOpcode 7 k := by decide
    obtain ⟨k, hop⟩ := hjoin _ (htop ▸ h15) (hcond ▸ hcode)
    rw [decode_of_opcode_cond hop, decodeConditional, hcode]
    rfl
  case flags =>
    obtain h | h | h := h <;> exact onlyAluWritesFlags _ s t rfl h

/-! ### LOAD -/

theorem loadFrom_onlyWrote {s : State} {a v : Byte} (gd : Reg) (h : memRead s a = .next v) :
    ∃ t, loadFrom s.advance gd a = .next t ∧ OnlyWrote gd v s t :=
  ⟨_, loadFrom_eq_next.2 ⟨v, h, rfl⟩, advance_onlyWrote s gd v⟩

theorem loadFrom_refused {s : State} {a : Byte} (gd : Reg) (h : s.region a = .none) :
    loadFrom s.advance gd a = .refused .accessToUnmapped :=
  loadFrom_eq_refused.2 ⟨rfl, h⟩

/-- Settles O29: LOAD is the write of what the data read answers. -/
theorem loadImmReadsTheAddress : Obligations.LoadImmReadsTheAddress :=
  fun gd _ _ => ⟨fun _ => loadFrom_onlyWrote gd, loadFrom_refused gd⟩

theorem exec_load_of_ne {gd : Reg} {p : Ptr} (s : State) (hne : gd ≠ p.reg) :
    exec (.load gd p) s = loadFrom s.advance gd (operand s p.reg) := by
  simp [exec, execLoad, hne, State.getReg_advance]

/-- Settles O30: the same at the address the pointer's operand read gives. -/
theorem loadReadsThroughThePointer : Obligations.LoadReadsThroughThePointer := by
  intro gd p s hne
  rw [exec_load_of_ne s hne]
  exact ⟨fun _ => loadFrom_onlyWrote gd, loadFrom_refused gd⟩

/-- A mapped address answers a data read. -/
theorem exists_memRead_of_mapped {s : State} {a : Byte} (h : s.region a ≠ .none) : ∃ v, memRead s a = .next v := by
  unfold memRead
  cases hr : s.region a with
  | none => exact absurd hr h
  | data | prog => exact ⟨_, rfl⟩

theorem exec_load_self_free {p : Ptr} {s : State} (h : s.cfg.undefinedResult = .freeValue) :
    exec (.load p.reg p) s = loadFree s.advance p.reg (operand s p.reg) := by
  simp [exec, execLoad, h, State.getReg_advance]

/-- Settles O31: LOAD of a pointer through itself by the parameter of undefined results. -/
theorem loadThroughItselfIsRefusedOrFree : Obligations.LoadThroughItselfIsRefusedOrFree := by
  refine fun p s => ⟨fun h => ?refuse, fun h hr => ?mapped, fun h hr => ?unmapped⟩
  case refuse => simp [exec, execLoad, h]
  case mapped =>
    exact ⟨_, (exec_load_self_free h).trans (loadFree_eq_next.2 ⟨exists_memRead_of_mapped hr, rfl⟩), advance_drewReg s p.reg⟩
  case unmapped => exact (exec_load_self_free h).trans (loadFree_eq_refused.2 ⟨rfl, hr⟩)

/-! ### STORE -/

theorem exec_storeImm (gs : Reg) (imm : Byte) (s : State) :
    exec (.storeImm gs imm) s = memWrite s.advance imm (operand s gs) := by
  rw [← State.getReg_advance]; rfl

theorem exec_store (gs : Reg) (p : Ptr) (s : State) :
    exec (.store gs p) s = memWrite s.advance (operand s p.reg) (operand s gs) := by
  rw [← State.getReg_advance, ← State.getReg_advance]; rfl

/-- Settles O33: a write refuses by the region of its address. -/
theorem storesStopByName : Obligations.StoresStopByName := by
  have hprog : ∀ {s : State} {a v}, s.region a = .prog → s.cfg.storeToProg = .refuse →
      memWrite s.advance a v = .refused .storeToProg := fun hr hc => memWrite_eq_refused.2 (.inl ⟨rfl, hc, hr⟩)
  have hnone : ∀ {s : State} {a v}, s.region a = .none → memWrite s.advance a v = .refused .accessToUnmapped :=
    fun hr => memWrite_eq_refused.2 (.inr ⟨rfl, hr⟩)
  refine ⟨fun gs imm s => ?_, fun gs p s => ?_⟩
  · rw [exec_storeImm]; exact ⟨hprog, hnone⟩
  · rw [exec_store]; exact ⟨hprog, hnone⟩

theorem advance_setCell_movedOn (s : State) (a v : Byte) : MovedOn s (s.advance.setCell a v) :=
  ⟨rfl, fun r hr _ => by rw [State.getReg_setCell, State.getReg_advance_other s hr]⟩

theorem advance_setWord_movedOn (s : State) (a : Byte) (w : Word) : MovedOn s (s.advance.setWord a w) :=
  ⟨rfl, fun r hr _ => by rw [State.getReg_setWord, State.getReg_advance_other s hr]⟩

@[simp] theorem dataCell_advance (s : State) (b : Byte) : s.advance.dataCell b = s.dataCell b := rfl

@[simp] theorem progWord_advance (s : State) (b : Byte) : s.advance.progWord b = s.progWord b := rfl

/-- Writing a cell changes that cell, and no program word. -/
theorem advance_setCell_storeEffect {s : State} {a : Byte} (v : Byte) (hr : s.region a = .data) :
    StoreEffect a v s (s.advance.setCell a v) := by
  refine ⟨fun b => ?cell, fun b => ?word, advance_setCell_movedOn s a v, rfl, ⟨rfl, rfl⟩, rfl, rfl, rfl, rfl⟩
  case cell =>
    by_cases hb : b = a
    · subst hb; simp [hr]
    · simp [hb, State.dataCell_setCell_other s.advance v hb]
  case word => simp [hr]

/-- Writing the low byte of a word changes that word, keeps its upper byte, and changes no cell. -/
theorem advance_setWord_storeEffect {s : State} {a : Byte} (v : Byte) (hr : s.region a = .prog) :
    StoreEffect a v s (s.advance.setWord a (highByte (s.progWord a) ++ v)) := by
  refine ⟨fun b => ?cell, fun b => ?word, advance_setWord_movedOn s a _, rfl, ⟨rfl, rfl⟩, rfl, rfl, rfl, rfl⟩
  case cell => simp [hr]
  case word =>
    by_cases hb : b = a
    · subst hb; simp [hr]
    · simp [hb, State.progWord_setWord_other s.advance _ hb]

/-- A write to a storable address answers, with the one location changed. -/
theorem memWrite_storeEffect {s : State} {a : Byte} (v : Byte) (h : Storable s a) :
    ∃ t, memWrite s.advance a v = .next t ∧ StoreEffect a v s t := by
  obtain hr | ⟨hr, hc⟩ := h
  · exact ⟨_, memWrite_eq_next.2 (.inl ⟨hr, rfl⟩), advance_setCell_storeEffect v hr⟩
  · exact ⟨_, memWrite_eq_next.2 (.inr ⟨hr, hc, rfl⟩), advance_setWord_storeEffect v hr⟩

/-- Settles O32: both forms are the write of the operand read, at their own address. -/
theorem storesWriteOneLocation : Obligations.StoresWriteOneLocation := by
  refine ⟨fun gs imm s h => ?_, fun gs p s h => ?_⟩
  · rw [exec_storeImm]; exact memWrite_storeEffect _ h
  · rw [State.getReg_advance] at h ⊢
    rw [exec_store]
    exact memWrite_storeEffect _ h

/-- What a write has changed is what a data read and a fetch see. -/
theorem memWrite_readsBack {s t : State} {a v : Byte} (h : memWrite s.advance a v = .next t) : ReadsBack a v s t := by
  obtain ⟨hr, rfl⟩ | ⟨hr, -, rfl⟩ := memWrite_eq_next.1 h
  · exact ⟨memRead_eq_next.2 (.inl ⟨hr, by simp⟩), fun hp => absurd (hr.symm.trans hp) (by simp)⟩
  · exact ⟨memRead_eq_next.2 (.inr ⟨hr, by simp⟩), fun _ => fetch_eq_next.2 ⟨hr, State.progWord_setWord_same _ _ _⟩⟩

/-- Settles O34: both forms are a write, and a write is read back. -/
theorem loadAndFetchSeeTheStore : Obligations.LoadAndFetchSeeTheStore := by
  refine ⟨fun gs imm s t h => ?_, fun gs p s t h => ?_⟩
  · exact memWrite_readsBack (exec_storeImm gs imm s ▸ h)
  · rw [State.getReg_advance]
    exact memWrite_readsBack (exec_store gs p s ▸ h)

end Sys2Proof.Machine

/-! PROOFS. One step: the launch state, the fetch, and the word placed at PC (10_state.md sections 2 and 6). -/

namespace Sys2Proof.Machine

/-- Settles O1: the launch puts each argument in its field. -/
theorem launchStateIsAsGiven : Obligations.LaunchStateIsAsGiven := by
  refine ⟨fun cfg pc0 x f pm dm => ⟨rfl, rfl, fun r hr => ?_, rfl, rfl, rfl, rfl⟩, rfl, rfl, rfl, rfl⟩
  cases r <;> first | rfl | exact absurd rfl hr

/-- Settles O2: reset lists nothing in either memory. -/
theorem resetMeetsInvariants : Obligations.ResetMeetsInvariants := by
  obtain ⟨hp, hd⟩ := State.reset_memories_wf
  refine ⟨by rw [State.wf, hp, hd]; rfl, placed_iff.2 ⟨?_, ?_⟩⟩ <;> rintro e ⟨⟩

/-- A running machine runs the word at PC. -/
theorem step_of_prog {s : State} (hh : s.halted = false) (hr : s.region s.pc = .prog) : step s = runWord s (s.progWord s.pc) := by
  simp [step, hh, fetch_eq_next.2 ⟨hr, rfl⟩]

/-- Settles O3: a step of a running machine is the fetch, the decoder and exec. -/
theorem stepRunsDecodedInstruction : Obligations.StepRunsDecodedInstruction :=
  fun s i hh hr hdec => by rw [step_of_prog hh hr, runWord, hdec]

/-- Settles O5: the fetch refuses by region, and then the decoder by its reason. -/
theorem fetchStopsByName : Obligations.FetchStopsByName := by
  refine fun s hh => ⟨fun hr => ?data, fun hr => ?none, fun r hr hdec => ?prog⟩
  case data => simp [step, hh, fetch, hr, andThen]
  case none => simp [step, hh, fetch, hr, andThen]
  case prog => rw [step_of_prog hh hr, runWord, hdec]

section withFetchWord
variable (s : State) (w : Word)

/-- The word placed at PC is the one given. -/
theorem withFetchWord_pmem : (s.withFetchWord 16 w.toNat).pmem = Memory.put s.pmem s.pc.toNat w := by
  simp [State.withFetchWord, Nat.mod_eq_of_lt w.isLt]

theorem withFetchWord_progWord_pc : (s.withFetchWord 16 w.toNat).progWord s.pc = w := by
  rw [State.progWord_congr (s := s.setWord s.pc w) (withFetchWord_pmem s w), State.progWord_setWord_same]

theorem withFetchWord_progWord_other {a : Byte} (ha : a ≠ s.pc) :
    (s.withFetchWord 16 w.toNat).progWord a = s.progWord a := by
  rw [State.progWord_congr (s := s.setWord s.pc w) (withFetchWord_pmem s w), State.progWord_setWord_other _ _ ha]

theorem withFetchWord_cfg_of_prog (h : s.region s.pc = .prog) : (s.withFetchWord 16 w.toNat).cfg = s.cfg := by
  simp [State.withFetchWord, h]

/-- Where PC was no `prog` address, one range is put before the map. -/
theorem withFetchWord_cfg_of_not_prog (h : s.region s.pc ≠ .prog) : (s.withFetchWord 16 w.toNat).cfg =
    { s.cfg with region := { base := s.pc.toNat, size := 1, kind := .prog } :: s.cfg.region } :=
  if_neg h

/-- No parameter but REGION changes. -/
theorem withFetchWord_cfg : { (s.withFetchWord 16 w.toNat).cfg with region := s.cfg.region } = s.cfg := by
  by_cases h : s.region s.pc = .prog
  · rw [withFetchWord_cfg_of_prog s w h]
  · rw [withFetchWord_cfg_of_not_prog s w h]

theorem withFetchWord_region_pc : (s.withFetchWord 16 w.toNat).region s.pc = .prog := by
  by_cases h : s.region s.pc = .prog
  · rw [State.region_congr (withFetchWord_cfg_of_prog s w h), h]
  · rw [State.region, withFetchWord_cfg_of_not_prog s w h]
    simp [regionOf]

/-- The range put first covers PC and no other address. -/
theorem withFetchWord_region_other {a : Byte} (ha : a ≠ s.pc) : (s.withFetchWord 16 w.toNat).region a = s.region a := by
  by_cases h : s.region s.pc = .prog
  · rw [State.region_congr (withFetchWord_cfg_of_prog s w h)]
  · have hout : ¬ (s.pc.toNat ≤ a.toNat ∧ a.toNat < s.pc.toNat + 1) := fun ⟨hle, hlt⟩ =>
      ha (BitVec.eq_of_toNat_eq (by omega))
    rw [State.region, withFetchWord_cfg_of_not_prog s w h, regionOf, if_neg hout, State.region]

end withFetchWord

/-- Settles O4: what the stand-in for a load of a program changes, field by field. -/
theorem withFetchWordRunsThatWord : Obligations.WithFetchWordRunsThatWord := by
  intro s w i hdec s'
  have hword : s'.progWord s.pc = w := withFetchWord_progWord_pc s w
  have hregion : s'.region s.pc = .prog := withFetchWord_region_pc s w
  have hdc := congrArg Config.dontCare (withFetchWord_cfg s w)
  have hstep : step s' = exec i s' := by
    refine stepRunsDecodedInstruction s' i rfl hregion ?_
    rw [show s'.progWord s'.pc = w from hword]
    exact hdc ▸ hdec
  refine ⟨hstep, hword, rfl, hregion, fun r => ?_, rfl, rfl, ⟨rfl, rfl⟩, rfl, fun _ => rfl, fun a ha => ?_,
    withFetchWord_cfg s w, withFetchWord_cfg_of_prog s w⟩
  · cases r <;> rfl
  · exact ⟨withFetchWord_progWord_other s w ha, withFetchWord_region_other s w ha⟩

end Sys2Proof.Machine
